-- ==== Sys2Proof/Word.lean ====
section
/-! DEFINITION. The words of the block: a byte, a command word, a 64-bit operand or result. -/

namespace Sys2Proof

/-- One byte: what every sink and source transaction moves (R46). -/
abbrev Byte := BitVec 8

/-- The 32-bit command word CMD (R60). -/
abbrev Cmd := BitVec 32

/-- A 64-bit operand DATA or result RESULT (R60). -/
abbrev Data := BitVec 64

end Sys2Proof
end

