-- ==== Sys2Proof/Config.lean ====
section
/-! DEFINITION. What is fixed for a run (00_scope.md R8): the constants, the platform's Boolean parameters, and the free
values of what the spec leaves open. -/

namespace Sys2Proof

/-- What the sink answers to one transaction (R12, R40): `ok` or `err`. -/
inductive SinkAnswer where
  | ok
  | err
deriving DecidableEq, Repr, Inhabited

/-- The platform's Boolean parameters (R8). Each is fixed for a run; no command changes one (R33). -/
structure Platform where
  /-- `FLUSH_CLEARS_USED` (D8): a successful FLUSH with pending bits sets `W.used` to 0. -/
  flushClearsUsed : Bool
  /-- `SINK_HAS_CLOSE` (D9): the sink exposes a close capability. -/
  sinkHasClose : Bool
  /-- `LOOPBACK` (D22): the sink's accepted bytes are the source. -/
  loopback : Bool
deriving DecidableEq, Repr

namespace Config

/-- `WMAX` (R8): the widest field of one WRITEBITS. -/
def wMax : Nat := 64

/-- `RMAX` (R8): the widest field of one READBITS. -/
def rMax : Nat := 64

/-- `CACHE_W` (R8): the width of the writer cache. -/
def cacheWidth : Nat := 8

/-- `POS_MAX` (R8): the largest legal value of `R.pos`, 2^63 − 1. -/
def posMax : Int := 0x7FFFFFFFFFFFFFFF

/-- `SRC_ADDR_W` (R8): source byte addresses are 0 to 2^60 - 1 (R41). -/
def srcAddrWidth : Nat := 60

/-- FREE VALUE (U10, D15; log 5). The sink's answer to the transaction numbered by the draw counter, where no scripted answer
is left: the spec admits both answers at every transaction. -/
opaque freeSinkAnswer : Nat → SinkAnswer

/-- FREE VALUE (U13, R140; log 7). What `W.cache` holds after a writer reset: the spec leaves it unspecified. -/
opaque freeCache : Nat → Byte

end Config

end Sys2Proof
end

