-- ==== Sys2Proof/Syntax.lean ====
section
/-! DEFINITION. The commands of DAWG1-BITIO version 1 (R3, R64), one constructor per row of the opcode table. -/

namespace Sys2Proof

/-- The whence of SEEK (R71). WH = 2 and WH = 3 are legal encodings; SEEK is fatal on them. -/
inductive Whence where
  /-- WH = 0, "start": absolute. -/
  | start
  /-- WH = 1, "current": relative to the cursor. -/
  | current
  /-- WH = 2: any other whence value. -/
  | other2
  /-- WH = 3: any other whence value. -/
  | other3
deriving DecidableEq, Repr

/-- A command (R64). A width `n` is the N field of the command word, `value` and `offset` are DATA; a command that ignores
DATA carries none (R62). -/
inductive Instr where
  /-- WRITEBITS n, value (R81). -/
  | writebits (n : Nat) (value : Data)
  /-- FLUSH (R84). -/
  | flush
  /-- CLOSE (R87). -/
  | close
  /-- READBITS n (R101). -/
  | readbits (n : Nat)
  /-- SEEK offset, whence (R107). -/
  | seek (wh : Whence) (offset : Data)
  /-- SKIP offset (R109). -/
  | skip (offset : Data)
  /-- TELL (R111). -/
  | tell
deriving DecidableEq, Repr

/-- The command goes to the writer, not the reader (R64: opcodes 0x1 to 0x3). -/
def Instr.isWriter : Instr → Bool
  | .writebits _ _ => true
  | .flush => true
  | .close => true
  | .readbits _ => false
  | .seek _ _ => false
  | .skip _ => false
  | .tell => false

/-- The command reads DATA (R62). -/
def Instr.usesData : Instr → Bool
  | .writebits _ _ => true
  | .flush => false
  | .close => false
  | .readbits _ => false
  | .seek _ _ => true
  | .skip _ => true
  | .tell => false

end Sys2Proof
end

