-- ==== Sys2Proof/WellFormed.lean ====
section
/-! DEFINITION. The extra legality condition of a command (R65): a field width is at most 64. -/

namespace Sys2Proof

/-- The command's operands are ones its legal encodings can carry (R64, R65): N is at most `WMAX` in WRITEBITS and at most
`RMAX` in READBITS. Every other operand is legal at every value. -/
def Instr.wf : Instr → Bool
  | .writebits n _ => decide (n ≤ Config.wMax)
  | .flush => true
  | .close => true
  | .readbits n => decide (n ≤ Config.rMax)
  | .seek _ _ => true
  | .skip _ => true
  | .tell => true

end Sys2Proof
end

