-- ==== Sys2Proof/Decode.lean ====
section
/-! DEFINITION. The decoder of a command word and its operand (30_encoding.md), the encoder, and the match and mask table of
R64. Every bit position stands here and nowhere else. -/

namespace Sys2Proof

/-! ### The fields of CMD (R61) -/

/-- OP = CMD[3:0]. -/
def cmdOp (c : Cmd) : BitVec 4 := c.extractLsb' 0 4

/-- RSV0 = CMD[7:4], must be 0. -/
def cmdRsv0 (c : Cmd) : BitVec 4 := c.extractLsb' 4 4

/-- N = CMD[14:8], the field width, plain and unsigned (R63). -/
def cmdN (c : Cmd) : BitVec 7 := c.extractLsb' 8 7

/-- RSV1 = CMD[15], must be 0. -/
def cmdRsv1 (c : Cmd) : BitVec 1 := c.extractLsb' 15 1

/-- WH = CMD[17:16], the whence. -/
def cmdWh (c : Cmd) : BitVec 2 := c.extractLsb' 16 2

/-- RSV2 = CMD[31:18], must be 0. -/
def cmdRsv2 (c : Cmd) : BitVec 14 := c.extractLsb' 18 14

/-! ### The opcode map (R64) -/

/-- The seven assigned opcodes. -/
inductive Opcode where
  | writebits
  | flush
  | close
  | readbits
  | seek
  | skip
  | tell
deriving DecidableEq, Repr

/-- The value of OP for an opcode (R64, D3). -/
def opcodeBits : Opcode → BitVec 4
  | .writebits => 0x1
  | .flush => 0x2
  | .close => 0x3
  | .readbits => 0x8
  | .seek => 0x9
  | .skip => 0xA
  | .tell => 0xB

/-- The opcode an OP value is assigned to, if any (R64, R66). -/
def opcodeOf (b : BitVec 4) : Option Opcode :=
  if b = 0x1 then some .writebits
  else if b = 0x2 then some .flush
  else if b = 0x3 then some .close
  else if b = 0x8 then some .readbits
  else if b = 0x9 then some .seek
  else if b = 0xA then some .skip
  else if b = 0xB then some .tell
  else none

/-- The command uses the N field (R64). -/
def opcodeUsesN : Opcode → Bool
  | .writebits => true
  | .flush => false
  | .close => false
  | .readbits => true
  | .seek => false
  | .skip => false
  | .tell => false

/-- The command uses the WH field (R64). -/
def opcodeUsesWh : Opcode → Bool
  | .writebits => false
  | .flush => false
  | .close => false
  | .readbits => false
  | .seek => true
  | .skip => false
  | .tell => false

/-- The whence a WH value stands for (R71). -/
def whenceOf (b : BitVec 2) : Whence :=
  if b = 0 then .start else if b = 1 then .current else if b = 2 then .other2 else .other3

/-- The WH value of a whence (R71). -/
def whenceBits : Whence → BitVec 2
  | .start => 0
  | .current => 1
  | .other2 => 2
  | .other3 => 3

/-- Why a command word is illegal (R65). The host sees one status for all of them, ILLEGAL (R122). -/
inductive DecodeError where
  /-- OP is not one of the seven values. -/
  | unassignedOpcode
  /-- RSV0, RSV1 or RSV2 is not zero. -/
  | reservedNonZero
  /-- N is not zero in a command that does not use N. -/
  | unusedWidthNonZero
  /-- WH is not zero in a command that does not use WH. -/
  | unusedWhenceNonZero
  /-- N > 64 in WRITEBITS or READBITS. -/
  | widthAbove64
deriving DecidableEq, Repr

/-- The command an opcode makes of its operands (R62). -/
def buildInstr (op : Opcode) (n : Nat) (wh : Whence) (d : Data) : Instr :=
  match op with
  | .writebits => .writebits n d
  | .flush => .flush
  | .close => .close
  | .readbits => .readbits n
  | .seek => .seek wh d
  | .skip => .skip d
  | .tell => .tell

/-- The command a command word and its operand stand for, or why the word is illegal (R61, R64, R65). -/
def decode (c : Cmd) (d : Data) : Except DecodeError Instr :=
  match opcodeOf (cmdOp c) with
  | none => .error .unassignedOpcode
  | some op =>
    if cmdRsv0 c ≠ 0 ∨ cmdRsv1 c ≠ 0 ∨ cmdRsv2 c ≠ 0 then .error .reservedNonZero
    else if opcodeUsesN op = false ∧ cmdN c ≠ 0 then .error .unusedWidthNonZero
    else if opcodeUsesWh op = false ∧ cmdWh c ≠ 0 then .error .unusedWhenceNonZero
    else
      let i := buildInstr op (cmdN c).toNat (whenceOf (cmdWh c)) d
      if i.wf then .ok i else .error .widthAbove64

/-! ### The encoder (R61, R64, R68) -/

/-- A command word put together from its three used fields, reserved fields 0 (R61). -/
def assembleCmd (op : BitVec 4) (n : BitVec 7) (wh : BitVec 2) : Cmd :=
  (0#14 ++ wh ++ 0#1 ++ n ++ 0#4 ++ op : BitVec (14 + 2 + 1 + 7 + 4 + 4))

/-- The command word and operand of a command (R68): DATA is 0 where the command ignores it. -/
def encode : Instr → Cmd × Data
  | .writebits n value => (assembleCmd (opcodeBits .writebits) (BitVec.ofNat 7 n) 0, value)
  | .flush => (assembleCmd (opcodeBits .flush) 0 0, 0)
  | .close => (assembleCmd (opcodeBits .close) 0 0, 0)
  | .readbits n => (assembleCmd (opcodeBits .readbits) (BitVec.ofNat 7 n) 0, 0)
  | .seek wh offset => (assembleCmd (opcodeBits .seek) 0 (whenceBits wh), offset)
  | .skip offset => (assembleCmd (opcodeBits .skip) 0 0, offset)
  | .tell => (assembleCmd (opcodeBits .tell) 0 0, 0)

/-! ### The match and mask table (R64) -/

/-- The rows of R64's match and mask table: opcode, match, mask. -/
def commandTable : List (Opcode × Cmd × Cmd) :=
  [(.writebits, 0x00000001, 0xFFFF80FF),
   (.flush, 0x00000002, 0xFFFFFFFF),
   (.close, 0x00000003, 0xFFFFFFFF),
   (.readbits, 0x00000008, 0xFFFF80FF),
   (.seek, 0x00000009, 0xFFFCFFFF),
   (.skip, 0x0000000A, 0xFFFFFFFF),
   (.tell, 0x0000000B, 0xFFFFFFFF)]

/-- R65's definition of a legal word: it matches a row of the table and meets the row's extra condition, N ≤ 64 where N is
used. -/
def legalWord (c : Cmd) : Bool :=
  commandTable.any fun row =>
    decide (c &&& row.2.2 = row.2.1) && (!opcodeUsesN row.1 || decide ((cmdN c).toNat ≤ 64))

/-! ### The opcode table's numbering -/

/-- CMD of an instruction whose bits are `w`, numbered as the opcode table numbers them: bits 31..0 (log 2). -/
def tableCmd (nbits w : Nat) : Cmd := BitVec.ofNat 32 (w % 2 ^ nbits)

/-- DATA of such an instruction: the operand word after CMD, bits 95..32; zero where the table gives it no bits (log 2). -/
def tableData (nbits w : Nat) : Data := BitVec.ofNat 64 ((w % 2 ^ nbits) / 2 ^ 32)

/-- What the decoder reads from an instruction whose bits are `w`. -/
def decodeTableWord (nbits w : Nat) : Option Instr :=
  match decode (tableCmd nbits w) (tableData nbits w) with
  | .ok i => some i
  | .error _ => none

end Sys2Proof
end

