-- ==== Sys2Proof/Machine/State.lean ====
section
/-! DEFINITION. The state of the block and of what it is connected to, as plain data; the stops; the state after reset. -/

namespace Sys2Proof.Machine

/-- The STATUS codes a command can return (R120). -/
inductive Status where
  /-- 0: success. -/
  | ok
  /-- 1: illegal command word. -/
  | illegal
  /-- 2: a writer command while `W.err` = 1. -/
  | writerUnusable
  /-- 3: a `SinkWrite` answered `err`. -/
  | ioErrWrite
  /-- 4: `SinkClose` answered `err`. -/
  | ioErrClose
deriving DecidableEq, Repr

/-- A response: STATUS and RESULT (R28). -/
structure Response where
  status : Status
  result : Data
deriving DecidableEq, Repr

/-- The causes of a fatal halt (R120). -/
inductive FatalCause where
  /-- 1: a `MemRead` failed. -/
  | readFail
  /-- 2: SEEK with WH = 2 or 3. -/
  | badWhence
  /-- 3: the cursor would leave its range. -/
  | range
deriving DecidableEq, Repr

/-- One transaction with the sink or the source (R12, R46), with what the agent answered. -/
inductive Transaction where
  /-- `SinkWrite(v)`. -/
  | sinkWrite (v : Byte) (answer : SinkAnswer)
  /-- `SinkClose()`. -/
  | sinkClose (answer : SinkAnswer)
  /-- `MemRead(a, 1)`: a byte, or failure. -/
  | memRead (a : Nat) (answer : Option Byte)
deriving DecidableEq, Repr

/-- What the host can do at the block's interface (R135). -/
inductive HostEvent where
  /-- Issue a command: CMD and DATA. -/
  | command (cmd : Cmd) (data : Data)
  /-- Assert `rst_w` (R140). -/
  | writerReset
  /-- Assert `rst_r` (R141). -/
  | readerReset
  /-- Assert `rst` (R142). -/
  | blockReset
deriving DecidableEq, Repr

/-- The source's contents: (address, byte) pairs, addresses strictly rising (`Memory.wf`). An address that is not listed
holds no byte, so reading it fails (R41, R55; log 4). -/
abbrev Memory := List Host.Cell

/-- The machine: the block's registers (R29), the external agents as the block meets them (R30), the platform's parameters
(R8, R33), and what the host will do and has got back (R135, R136). -/
structure State where
  /-- `W.cache` (R22): the bits accumulated so far, the newest at bit 0. -/
  wCache : Byte
  /-- `W.used` (R23): how many bits of `W.cache` are pending. -/
  wUsed : BitVec 4
  /-- `W.err` (R24): the writer's sticky error flag. -/
  wErr : Bool
  /-- `R.pos` (R25): the reader's bit cursor, read as two's complement. -/
  rPos : Data
  /-- `B.fatal` (R27): the block has halted for good. -/
  bFatal : Bool
  /-- `B.fatal_cause` (R27): 0 none, 1 READ_FAIL, 2 BAD_WHENCE, 3 RANGE. -/
  bFatalCause : BitVec 2
  /-- The platform's parameters (R8). No step changes them (R33). -/
  platform : Platform
  /-- `SRC` (R55): the bytes of the source, used where LOOPBACK is false. No step changes it. -/
  source : Memory
  /-- Every transaction made so far, oldest first (R46, R51; log 10). The sink's accepted bytes and its closes are views of it. -/
  bus : List Transaction
  /-- The model's own: the answers the sink is set to give next (log 5). -/
  sinkScript : List SinkAnswer
  /-- The model's own: how many free values have been drawn (log 5, log 7). -/
  draws : Nat
  /-- What the host will still do, next first (R21, R135; log 1). -/
  host : List HostEvent
  /-- What the host got back, oldest first: one entry a command, `none` for a command that raised FATAL (R28, R136; log 9). -/
  responses : List (Option Response)
deriving DecidableEq, Repr

/-- Why the machine stops. -/
inductive Fault where
  /-- A command is presented while `B.fatal` = 1: the block is stuck and the command gets no response (R27, R124, R125
  step 1). Raised by the entry check of every command. SAFE: the spec says a model has no further step here (log 8). -/
  | stuck
deriving DecidableEq, Repr

/-- Why an instruction is given no meaning. -/
inductive Refusal where
  /-- The instruction has no meaning in the model yet. Raised only by an arm of `exec`; no arm raises it now. SAFE. -/
  | notModelled (mnemonic : String)
deriving DecidableEq, Repr

/-- The platform's parameters the machine is bound to at `State.reset` (log 3): the defaults of 95_test_vectors.md. -/
def defaultPlatform : Platform :=
  { flushClearsUsed := true, sinkHasClose := false, loopback := false }

/-- The machine right after a block reset (R142): the reset column of R29, nothing issued, nothing transferred, no byte in
the source. `W.cache`, which the spec leaves unspecified, is 0 (log 6). -/
def State.reset : State :=
  { wCache := 0
    wUsed := 0
    wErr := false
    rPos := 0
    bFatal := false
    bFatalCause := 0
    platform := defaultPlatform
    source := []
    bus := []
    sinkScript := []
    draws := 0
    host := []
    responses := [] }

end Sys2Proof.Machine
end

