-- ==== Sys2Proof/Machine/Operands.lean ====
section
/-! DEFINITION. The operand forms: fields of WRITEBITS, the first-byte mask and shifts of READBITS, the cursor's byte and bit
offset, and the targets of SEEK and SKIP. Values are mathematical integers unless a width is stated (R11). -/

namespace Sys2Proof.Machine

/-- `mask(k) = 2^k − 1` (R11). -/
def mask (k : Nat) : Nat := 2 ^ k - 1

/-! ### The writer's operands (R81) -/

/-- How many bits one loop iteration of WRITEBITS moves: `min(rem, 8 − W.used)`. -/
def chunkSize (rem used : Nat) : Nat := min rem (Config.cacheWidth - used)

/-- The chunk's bits: `(value >> (rem − chunk)) & mask(chunk)`. -/
def chunkBits (value rem chunk : Nat) : Nat := (value >>> (rem - chunk)) &&& mask chunk

/-- The cache after a chunk is shifted in: `((W.cache << chunk) | bits)[7:0]`. -/
def shiftedIn (cache : Byte) (chunk bits : Nat) : Byte :=
  BitVec.ofNat 8 ((cache.toNat <<< chunk) ||| bits)

/-- The cache padded for emission: `(W.cache << (8 − W.used))[7:0]` (R84). -/
def padded (cache : Byte) (used : Nat) : Byte :=
  BitVec.ofNat 8 (cache.toNat <<< (Config.cacheWidth - used))

/-! ### The reader's operands (R101) -/

/-- `bo = R.pos mod 8`, the bit offset of the cursor. -/
def State.bitOffset (s : State) : Nat := s.rPos.toNat % 8

/-- `R.pos div 8`, the byte address of the cursor (R50). -/
def State.byteOffset (s : State) : Nat := s.rPos.toNat / 8

/-- The mask of the first byte: `0xFF >> bo` (R102). -/
def firstByteMask (bo : Nat) : Nat := 0xFF >>> bo

/-- The bits of the first byte that are not consumed yet: `b & (0xFF >> bo)`. -/
def unconsumed (b : Byte) (bo : Nat) : Nat := b.toNat &&& firstByteMask bo

/-- A field within one byte: `(b & (0xFF >> bo)) >> (8 − bo − N)`. -/
def withinByte (b : Byte) (bo n : Nat) : Nat := unconsumed b bo >>> (8 - bo - n)

/-- The accumulator after a whole byte: `(acc << 8) | b`. -/
def accByte (acc : Nat) (b : Byte) : Nat := (acc <<< 8) ||| b.toNat

/-- The accumulator after a partial tail: `(acc << rem) | (b >> (8 − rem))`. -/
def accTail (acc rem : Nat) (b : Byte) : Nat := (acc <<< rem) ||| (b.toNat >>> (8 - rem))

/-- A cursor position is legal: it lies in [0, `POS_MAX`] (R25). -/
def cursorLegal (p : Int) : Bool := decide (0 ≤ p) && decide (p ≤ Config.posMax)

/-- The position SEEK asks for, DATA read as `sext_64` and the sum exact; none where the whence is unsupported (R107). -/
def seekTarget (wh : Whence) (offset : Data) (s : State) : Option Int :=
  match wh with
  | .start => some offset.toInt
  | .current => some (s.rPos.toInt + offset.toInt)
  | .other2 => none
  | .other3 => none

/-- The position SKIP asks for (R109). -/
def skipTarget (offset : Data) (s : State) : Int := s.rPos.toInt + offset.toInt

end Sys2Proof.Machine
end

