-- ==== Sys2Proof/Machine/Ops.lean ====
section
/-! DEFINITION. The named operations over the registers, the sink and the source; responding; raising FATAL, and the resets,
one of which is the only way back from it. -/

namespace Sys2Proof.Machine

/-! ### The source's memory (R41, R55) -/

/-- The canonical form: addresses strictly rising, all in the source space. No byte is what an unlisted address reads as,
since that is a failure. -/
abbrev Memory.wf (m : Memory) : Prop :=
  m.Pairwise (fun x y => x.1 < y.1) ∧ ∀ x ∈ m, x.1 < 2 ^ Config.srcAddrWidth

/-- The byte at an address, if the source holds one there. -/
def Memory.read : Memory → Nat → Option Byte
  | [], _ => none
  | (a', b) :: rest, a => if a = a' then some b else Memory.read rest a

/-- Place a byte in its order among the pairs, in place of the one at its address if there is one. -/
def Memory.place (a : Nat) (b : Byte) : Memory → Memory
  | [] => [(a, b)]
  | (a', b') :: rest =>
    if a < a' then (a, b) :: (a', b') :: rest
    else if a = a' then (a, b) :: rest
    else (a', b') :: Memory.place a b rest

/-- The platform puts a byte into the source; an address outside the source space takes none (R41). -/
def Memory.write (m : Memory) (a : Nat) (b : Byte) : Memory :=
  if a < 2 ^ Config.srcAddrWidth then Memory.place a b m else m

/-- Put bytes at consecutive addresses. -/
def Memory.writeBytes (m : Memory) (a : Nat) : List Byte → Memory
  | [] => m
  | b :: rest => Memory.writeBytes (m.write a b) (a + 1) rest

/-- A source that holds the listed bytes from address 0 on and nothing after them. -/
def Memory.ofBytes (bs : List Byte) : Memory := Memory.writeBytes [] 0 bs

/-- The platform's binding of the sink and the source before the first command (R135, R144). -/
def State.bind (p : Platform) (src : Memory) (s : State) : State :=
  { s with platform := p, source := src }

/-! ### Views of the transactions (R30, R136) -/

/-- The byte a transaction adds to the sink: one that answers `ok` to a `SinkWrite` (R40). -/
def acceptedByte : Transaction → Option Byte
  | .sinkWrite v .ok => some v
  | .sinkWrite _ .err => none
  | .sinkClose _ => none
  | .memRead _ _ => none

/-- What a `SinkClose` answered. -/
def closeAnswer : Transaction → Option SinkAnswer
  | .sinkWrite _ _ => none
  | .sinkClose c => some c
  | .memRead _ _ => none

/-- The sequence of bytes the sink has accepted (R30, R40). -/
def State.accepted (s : State) : List Byte := s.bus.filterMap acceptedByte

/-- What each `SinkClose` answered, in order (R136). -/
def State.closeAnswers (s : State) : List SinkAnswer := s.bus.filterMap closeAnswer

/-- The sink has been closed: some `SinkClose` answered `ok` (R30). -/
def State.sinkClosed (s : State) : Bool := s.closeAnswers.contains .ok

/-- What the source answers at a byte address: its contents, or under LOOPBACK the sink's accepted byte of that number;
nothing outside the source space (R41, R54, R55). -/
def State.sourceAt (s : State) (a : Nat) : Option Byte :=
  if a < 2 ^ Config.srcAddrWidth then
    if s.platform.loopback then s.accepted[a]? else s.source.read a
  else none

/-! ### Transactions (R12, R46) -/

/-- Record a transaction. -/
def State.record (t : Transaction) (s : State) : State := { s with bus := s.bus ++ [t] }

/-- The sink's next answer: the next scripted one, or else a free value (R40, U10; log 5). -/
def State.nextAnswer (s : State) : SinkAnswer :=
  match s.sinkScript with
  | a :: _ => a
  | [] => Config.freeSinkAnswer s.draws

/-- The state once that answer is drawn. -/
def State.answerDrawn (s : State) : State :=
  match s.sinkScript with
  | _ :: rest => { s with sinkScript := rest }
  | [] => { s with draws := s.draws + 1 }

/-- `SinkWrite(v)` (R12, R40). -/
def sinkWrite (v : Byte) (s : State) : SinkAnswer × State :=
  (s.nextAnswer, s.answerDrawn.record (.sinkWrite v s.nextAnswer))

/-- `SinkClose()` (R12). -/
def sinkClose (s : State) : SinkAnswer × State :=
  (s.nextAnswer, s.answerDrawn.record (.sinkClose s.nextAnswer))

/-- `MemRead(a, 1)` (R12, R41): it changes nothing of the source (R48). -/
def memRead (a : Nat) (s : State) : Option Byte × State :=
  (s.sourceAt a, s.record (.memRead a (s.sourceAt a)))

/-! ### The writer's registers -/

/-- Shift a chunk into the cache and count it (R81). -/
def State.shiftIn (chunk bits : Nat) (s : State) : State :=
  { s with wCache := shiftedIn s.wCache chunk bits, wUsed := BitVec.ofNat 4 (s.wUsed.toNat + chunk) }

/-- Left-justify the pending bits and pad with zeros (R84). -/
def State.padCache (s : State) : State := { s with wCache := padded s.wCache s.wUsed.toNat }

/-- `W.used <- 0`. -/
def State.clearUsed (s : State) : State := { s with wUsed := 0 }

/-! ### The cursor -/

/-- `R.pos <- p` (R25). -/
def State.setPos (p : Int) (s : State) : State := { s with rPos := BitVec.ofInt 64 p }

/-- `R.pos <- R.pos + k`. -/
def State.advance (k : Nat) (s : State) : State := { s with rPos := s.rPos + BitVec.ofNat 64 k }

/-! ### Ending a command (R12, R28, R124) -/

/-- `respond(status, result)`. -/
def State.respond (st : Status) (r : Data) (s : State) : State :=
  { s with responses := s.responses ++ [some { status := st, result := r }] }

/-- The number a cause is recorded by (R27, R120). -/
def causeCode : FatalCause → BitVec 2
  | .readFail => 1
  | .badWhence => 2
  | .range => 3

/-- The number of a STATUS (R120). -/
def statusCode : Status → BitVec 3
  | .ok => 0
  | .illegal => 1
  | .writerUnusable => 2
  | .ioErrWrite => 3
  | .ioErrClose => 4

/-- `raise FATAL(cause)` (R124): the halt and its cause are recorded and the command gets no response. Every other register
stays as the command has left it: `R.pos` keeps its value and no pending bit is emitted. -/
def State.raiseFatal (c : FatalCause) (s : State) : State :=
  { s with bFatal := true, bFatalCause := causeCode c, responses := s.responses ++ [none] }

/-! ### Resets (R140 to R142) -/

/-- Writer reset `rst_w` (R140): the pending bits are discarded, the error flag cleared; `W.cache` is left unspecified, a
free value (log 7). It does not clear `B.fatal` and makes no transaction. -/
def State.writerReset (s : State) : State :=
  { s with wCache := Config.freeCache s.draws, wUsed := 0, wErr := false, draws := s.draws + 1 }

/-- Reader reset `rst_r` (R141). -/
def State.readerReset (s : State) : State := { s with rPos := 0 }

/-- Block reset `rst` (R142): both unit resets, and the only way out of a fatal halt. -/
def State.blockReset (s : State) : State :=
  { s.writerReset.readerReset with bFatal := false, bFatalCause := 0 }

/-- The host's next event is taken off its list (R21; log 1). -/
def State.withHost (rest : List HostEvent) (s : State) : State := { s with host := rest }

end Sys2Proof.Machine
end

