-- ==== Sys2Proof/Machine/Flags.lean ====
section
/-! DEFINITION. The flags a command is checked against on entry (R80, R100, R125) and the one the writer sets. -/

namespace Sys2Proof.Machine

/-- `W.err <- 1` (R24). -/
def State.setWriterErr (s : State) : State := { s with wErr := true }

/-- An illegal command word answers ILLEGAL and changes no state (R66, R122). -/
def answerIllegal (s : State) : State := s.respond .illegal 0

/-- The entry of every writer command (R80), in R125's order: stuck while `B.fatal` = 1; ILLEGAL; WRITER_UNUSABLE while
`W.err` = 1; then the command's body. -/
def writerEntry (legal : Bool) (body : State → State) (s : State) :
    Host.Outcome State Fault Refusal :=
  if s.bFatal then .fault .stuck
  else if !legal then .next (answerIllegal s)
  else if s.wErr then .next (s.respond .writerUnusable 0)
  else .next (body s)

/-- The entry of every reader command (R100). -/
def readerEntry (legal : Bool) (body : State → State) (s : State) :
    Host.Outcome State Fault Refusal :=
  if s.bFatal then .fault .stuck
  else if !legal then .next (answerIllegal s)
  else .next (body s)

end Sys2Proof.Machine
end

