-- ==== Sys2Proof/Machine/Reader.lean ====
section
/-! DEFINITION. The bit reader's commands (41_seeker.md): READBITS, SEEK, SKIP, TELL. -/

namespace Sys2Proof.Machine

/-- Step 2 of READBITS (R101): the field lies within the byte at the cursor. None: the `MemRead` failed. -/
def readWithin (n : Nat) (s : State) : Option Nat × State :=
  match memRead s.byteOffset s with
  | (none, s1) => (none, s1)
  | (some b, s1) => (some (withinByte b s.bitOffset n), s1.advance n)

/-- The loop of READBITS's step 3 (R101), which runs once for each whole byte left: `rem div 8` times. -/
def readWhole : Nat → Nat → State → Option Nat × State
  | 0, acc, s => (some acc, s)
  | k + 1, acc, s =>
    match memRead s.byteOffset s with
    | (none, s1) => (none, s1)
    | (some b, s1) => readWhole k (accByte acc b) (s1.advance 8)

/-- The partial tail of READBITS's step 3 (R101): `rem` is below 8, and nothing is read if it is 0. -/
def readTail (rem acc : Nat) (s : State) : Option Nat × State :=
  if rem = 0 then (some acc, s)
  else
    match memRead s.byteOffset s with
    | (none, s1) => (none, s1)
    | (some b, s1) => (some (accTail acc rem b), s1.advance rem)

/-- Step 3 of READBITS (R101): the field spans bytes. -/
def readAcross (n : Nat) (s : State) : Option Nat × State :=
  match memRead s.byteOffset s with
  | (none, s1) => (none, s1)
  | (some b, s1) =>
    let first := 8 - s.bitOffset
    let rem := n - first
    match readWhole (rem / 8) (unconsumed b s.bitOffset) (s1.advance first) with
    | (none, s2) => (none, s2)
    | (some acc, s2) => readTail (rem % 8) acc s2

/-- The field of `n` bits at the cursor, and the state with the cursor moved past it; none where a `MemRead` failed, the
cursor then where that read found it (R101, R106). -/
def readField (n : Nat) (s : State) : Option Nat × State :=
  if s.bitOffset + n ≤ 8 then readWithin n s else readAcross n s

/-- The body of READBITS (R101): the range check comes before any read (R125). -/
def readBody (n : Nat) (s : State) : State :=
  if s.rPos.toInt + n > Config.posMax then s.raiseFatal .range
  else
    match readField n s with
    | (some v, s1) => s1.respond .ok (BitVec.ofNat 64 v)
    | (none, s1) => s1.raiseFatal .readFail

/-- Move the cursor to `new` and respond, or raise FATAL(RANGE) with the cursor unchanged (R107, R109). -/
def moveCursor (new : Int) (result : Data) (s : State) : State :=
  if cursorLegal new then (s.setPos new).respond .ok result else s.raiseFatal .range

/-- The body of SEEK (R107): the whence is checked first, then the range (R125). -/
def seekBody (wh : Whence) (offset : Data) (s : State) : State :=
  match seekTarget wh offset s with
  | none => s.raiseFatal .badWhence
  | some new => moveCursor new (BitVec.ofInt 64 new) s

/-- The body of SKIP (R109). -/
def skipBody (offset : Data) (s : State) : State := moveCursor (skipTarget offset s) 0 s

/-- READBITS (R101): return the next `n` bits of the source, most significant first, and advance the cursor by `n`. -/
def execReadbits (n : Nat) (s : State) : Host.Outcome State Fault Refusal :=
  readerEntry (Instr.readbits n).wf (readBody n) s

/-- SEEK (R107): set the cursor, absolutely or relative to itself, and return its new value. -/
def execSeek (wh : Whence) (offset : Data) (s : State) : Host.Outcome State Fault Refusal :=
  readerEntry (Instr.seek wh offset).wf (seekBody wh offset) s

/-- SKIP (R109): move the cursor by a signed offset. -/
def execSkip (offset : Data) (s : State) : Host.Outcome State Fault Refusal :=
  readerEntry (Instr.skip offset).wf (skipBody offset) s

/-- TELL (R111): return the cursor. -/
def execTell (s : State) : Host.Outcome State Fault Refusal :=
  readerEntry Instr.tell.wf (fun s => s.respond .ok s.rPos) s

end Sys2Proof.Machine
end

