-- ==== Sys2Proof/Machine/Writer.lean ====
section
/-! DEFINITION. The bit writer's commands (40_writer.md): WRITEBITS, FLUSH, CLOSE. -/

namespace Sys2Proof.Machine

/-- What a writer command does after a chunk or a padding has been put into the cache: emit the byte; on `err` poison the
writer, leaving `W.used` and `W.cache` as they are (R81, R84, R123). -/
def emitCache (s : State) : SinkAnswer × State :=
  match sinkWrite s.wCache s with
  | (.ok, s') => (.ok, s')
  | (.err, s') => (.err, s'.setWriterErr)

/-- The loop of WRITEBITS (R81): `rem` bits of `value` are left. The first argument bounds the iterations; `rem + 1` is
enough for every value `W.used` can hold (log 12). -/
def writeLoop (value : Nat) : Nat → Nat → State → Status × State
  | 0, _, s => (.ok, s)
  | fuel + 1, rem, s =>
    if rem = 0 then (.ok, s)
    else
      let chunk := chunkSize rem s.wUsed.toNat
      let s1 := s.shiftIn chunk (chunkBits value rem chunk)
      if s1.wUsed = 8 then
        match emitCache s1 with
        | (.err, s2) => (.ioErrWrite, s2)
        | (.ok, s2) => writeLoop value fuel (rem - chunk) s2.clearUsed
      else writeLoop value fuel (rem - chunk) s1

/-- The body of FLUSH, which CLOSE begins with (R84, R87). -/
def flushBody (s : State) : Status × State :=
  if s.wUsed = 0 then (.ok, s)
  else
    match emitCache s.padCache with
    | (.err, s1) => (.ioErrWrite, s1)
    | (.ok, s1) => (.ok, if s1.platform.flushClearsUsed then s1.clearUsed else s1)

/-- The body of CLOSE (R87): FLUSH's body; then, if it succeeded and the sink can be closed, `SinkClose`. A close failure does
not set `W.err`. -/
def closeBody (s : State) : Status × State :=
  match flushBody s with
  | (.ok, s1) =>
    if s1.platform.sinkHasClose then
      match sinkClose s1 with
      | (.ok, s2) => (.ok, s2)
      | (.err, s2) => (.ioErrClose, s2)
    else (.ok, s1)
  | (st, s1) => (st, s1)

/-- WRITEBITS (R81): append the low `n` bits of `value` to the stream, most significant first. -/
def execWritebits (n : Nat) (value : Data) (s : State) : Host.Outcome State Fault Refusal :=
  writerEntry (Instr.writebits n value).wf
    (fun s => let r := writeLoop value.toNat (n + 1) n s; r.2.respond r.1 0) s

/-- FLUSH (R84): emit a pending partial byte, zero-padded on the low end. -/
def execFlush (s : State) : Host.Outcome State Fault Refusal :=
  writerEntry Instr.flush.wf (fun s => let r := flushBody s; r.2.respond r.1 0) s

/-- CLOSE (R87): flush, then close the sink if it can be closed. -/
def execClose (s : State) : Host.Outcome State Fault Refusal :=
  writerEntry Instr.close.wf (fun s => let r := closeBody s; r.2.respond r.1 0) s

end Sys2Proof.Machine
end

