-- ==== Sys2Proof/Machine/Dispatch.lean ====
section
/-! DEFINITION. One arm per command: which meaning it has. -/

namespace Sys2Proof.Machine

def exec (i : Instr) (s : State) : Host.Outcome State Fault Refusal :=
  match i with
  | .writebits n value => Sys2Proof.Machine.execWritebits n value s
  | .flush => Sys2Proof.Machine.execFlush s
  | .close => Sys2Proof.Machine.execClose s
  | .readbits n => Sys2Proof.Machine.execReadbits n s
  | .seek wh offset => Sys2Proof.Machine.execSeek wh offset s
  | .skip offset => Sys2Proof.Machine.execSkip offset s
  | .tell => Sys2Proof.Machine.execTell s

end Sys2Proof.Machine
end

