-- ==== Sys2Proof/Machine/Port.lean ====
section
/-! DEFINITION. The block's interface to the host (R135): a command word presented with its operand, and the resets. -/

namespace Sys2Proof.Machine

/-- A command word that is no command: stuck while `B.fatal` = 1, else ILLEGAL (R125 steps 1 and 2). -/
def rejectWord (s : State) : Host.Outcome State Fault Refusal :=
  if s.bFatal then .fault .stuck else .next (answerIllegal s)

/-- The host presents CMD and DATA: the block performs the command they stand for (R7, R60). -/
def present (c : Cmd) (d : Data) (s : State) : Host.Outcome State Fault Refusal :=
  match decode c d with
  | .ok i => exec i s
  | .error _ => rejectWord s

/-- One event of the host's (R135). -/
def performEvent (e : HostEvent) (s : State) : Host.Outcome State Fault Refusal :=
  match e with
  | .command c d => present c d s
  | .writerReset => .next s.writerReset
  | .readerReset => .next s.readerReset
  | .blockReset => .next s.blockReset

/-- The host's next event, if it has one; else the block is idle and holds its state (R134, R143). -/
def stepHost (s : State) : Host.Outcome State Fault Refusal :=
  match s.host with
  | [] => .next s
  | e :: rest => performEvent e (s.withHost rest)

/-- The instruction whose bits are `w`, presented as the host's next event (log 2). -/
def State.presentNext (nbits w : Nat) (s : State) : State :=
  s.withHost (.command (tableCmd nbits w) (tableData nbits w) :: s.host)

end Sys2Proof.Machine
end

