-- ==== Sys2Proof/Machine/Step.lean ====
section
/-! DEFINITION. One step: one event of the host's, performed whole (R7, R51). -/

namespace Sys2Proof.Machine

/-- One step of the machine. -/
def step (s : State) : Host.Outcome State Fault Refusal := stepHost s

/-- `s` with the instruction whose bits are `w` placed where the next step finds it: at the head of the host's events. -/
def State.withFetchWord (s : State) (nbits w : Nat) : State := s.presentNext nbits w

end Sys2Proof.Machine
end

