-- ==== Sys2Proof/Machine/Stream.lean ====
section
/-! DEFINITION. The bit streams the spec's laws speak of: stream bits and fields of the source (R10, R103, R104), the bits a
writer command adds to the stream (R82, R83), and the sink's answers to the transactions to come. No meaning uses these. -/

namespace Sys2Proof.Machine

/-! ### The source as a stream of bits -/

/-- Stream bit `p` of a source (R10): register bit `7 − (p mod 8)` of byte `p div 8`. Where there is no such byte it is 0;
every law that speaks of a stream bit takes the byte to be there. -/
def streamBit (src : Nat → Option Byte) (p : Nat) : Nat :=
  match src (p / 8) with
  | some b => (b.getLsbD (7 - p % 8)).toNat
  | none => 0

/-- The field of `n` stream bits at `p` as a big-endian unsigned integer (R103):
`sum over i in 0..n-1 of streamBit(p + i) * 2^(n - 1 - i)`. -/
def fieldAt (src : Nat → Option Byte) (p n : Nat) : Nat :=
  ((List.range n).map fun i => streamBit src (p + i) * 2 ^ (n - 1 - i)).sum

/-- How many source reads a READBITS of `n` bits at `p` makes when none fails: `max(1, ceil((p mod 8 + n) / 8))` (R46). -/
def readCount (p n : Nat) : Nat := max 1 ((p % 8 + n + 7) / 8)

/-- The byte addresses it reads, in order (R104). -/
def readAddrs (p n : Nat) : List Nat := List.range' (p / 8) (readCount p n)

/-- Reads of the listed addresses, each with what the source answers. -/
def readsOf (s : State) (addrs : List Nat) : List Transaction :=
  addrs.map fun a => .memRead a (s.sourceAt a)

/-- The state once `k` bits are passed by successful reads of the listed addresses. -/
def State.afterReads (k : Nat) (addrs : List Nat) (s : State) : State :=
  { s with rPos := s.rPos + BitVec.ofNat 64 k, bus := s.bus ++ readsOf s addrs }

/-- How far a READBITS at `p` has moved the cursor when it makes its read number `j`, counting from 0 (R106): not at all
before the first read has succeeded, then to the byte boundary that read addresses. -/
def passedBefore (p j : Nat) : Nat := if j = 0 then 0 else 8 * (p / 8 + j) - p

/-! ### The writer's stream -/

/-- The pending bits as a number (R22): `W.cache[W.used−1:0]`. -/
def State.pending (s : State) : Nat := s.wCache.toNat % 2 ^ s.wUsed.toNat

/-- R82's bit string S = P ++ F as a number of `W.used + n` bits: the pending bits, then the low `n` bits of `value`. -/
def joined (s : State) (n : Nat) (value : Data) : Nat :=
  s.pending * 2 ^ n + value.toNat % 2 ^ n

/-- How many bytes a WRITEBITS of `n` bits emits when every write succeeds (R46, R82). -/
def emitCount (s : State) (n : Nat) : Nat := (s.wUsed.toNat + n) / 8

/-- Bits 8j to 8j+7 of a string of `len` bits, taken MSB-first (R82). -/
def byteOfString (len bits j : Nat) : Byte := BitVec.ofNat 8 (bits >>> (len - 8 * (j + 1)))

/-- The j-th byte a WRITEBITS emits (R82). -/
def emittedByte (s : State) (n : Nat) (value : Data) (j : Nat) : Byte :=
  byteOfString (s.wUsed.toNat + n) (joined s n value) j

/-- The first `k` bytes a WRITEBITS emits, in order. -/
def emittedBytes (s : State) (n : Nat) (value : Data) (k : Nat) : List Byte :=
  (List.range k).map (emittedByte s n value)

/-- At most how many bytes a command adds to the sink's accepted sequence. They are the sink's bytes number
`accepted.length` onwards, which under LOOPBACK are the source's addresses of the same numbers (R54). -/
def storedCount (i : Instr) (s : State) : Nat :=
  match i with
  | .writebits n _ => emitCount s n
  | .flush => if s.wUsed = 0 then 0 else 1
  | .close => if s.wUsed = 0 then 0 else 1
  | .readbits _ => 0
  | .seek _ _ => 0
  | .skip _ => 0
  | .tell => 0

/-- Successful writes of the listed bytes. -/
def writesOf (bs : List Byte) : List Transaction := bs.map fun b => .sinkWrite b .ok

/-- The state once `k` answers are drawn. -/
def State.answersDrawn (k : Nat) (s : State) : State :=
  { s with sinkScript := s.sinkScript.drop k, draws := s.draws + (k - s.sinkScript.length) }

/-- The state once the sink has accepted the listed bytes: that many answers are drawn and the writes recorded. -/
def State.afterWrites (bs : List Byte) (s : State) : State :=
  { s with
    sinkScript := s.sinkScript.drop bs.length
    draws := s.draws + (bs.length - s.sinkScript.length)
    bus := s.bus ++ writesOf bs }

/-- The writer's two bit registers at given values. -/
def State.withCache (c : Byte) (u : BitVec 4) (s : State) : State := { s with wCache := c, wUsed := u }

/-- The state once the sink has turned a byte down: the answer is drawn, the write recorded, the writer poisoned (R123). -/
def State.afterFailedWrite (b : Byte) (s : State) : State :=
  { s.answersDrawn 1 with wErr := true, bus := s.bus ++ [.sinkWrite b .err] }

/-- The low `w` bits of a number, most significant first. -/
def bitsOf (w v : Nat) : List Bool := (List.range w).map fun i => v.testBit (w - 1 - i)

/-- The writer stream (R83): the bits the sink's accepted bytes spell, followed by the pending bits. -/
def State.writerStream (s : State) : List Bool :=
  s.accepted.flatMap (fun b => bitsOf 8 b.toNat) ++ bitsOf s.wUsed.toNat s.wCache.toNat

/-! ### The sink's answers to come -/

/-- The sink's answer to the transaction `k` after the next one. -/
def State.answerAt (s : State) (k : Nat) : SinkAnswer :=
  match s.sinkScript[k]? with
  | some a => a
  | none => Config.freeSinkAnswer (s.draws + (k - s.sinkScript.length))

end Sys2Proof.Machine
end

