-- ==== Sys2Proof/Safety.lean ====
section
/-! DEFINITION. The states a run may reach, what a run shows at its end, and when two states differ in nothing a host can see. -/

namespace Sys2Proof.Machine

/-- `W.used` is in [0, 7], or it is 8 after a failed write, `W.err` then being 1 (R23). -/
def State.usedLegal (s : State) : Bool :=
  decide (s.wUsed.toNat ≤ 7) || (decide (s.wUsed = 8) && s.wErr)

/-- `R.pos` is in [0, `POS_MAX`] (R25). -/
def State.posLegal (s : State) : Bool := cursorLegal s.rPos.toInt

/-- `B.fatal_cause` is 0 exactly when there is no fatal event (R27). -/
def State.causeLegal (s : State) : Bool := decide (s.bFatal = true ↔ s.bFatalCause ≠ 0)

/-- The invariant of the machine: the legal values of R29's table and the source's canonical form. -/
abbrev State.Inv (s : State) : Prop :=
  s.usedLegal = true ∧ s.posLegal = true ∧ s.causeLegal = true ∧ s.source.wf

/-- A writer command's entry checks pass (R80), and `W.used` is in its range (R23). -/
abbrev State.WriterReady (s : State) : Prop :=
  s.bFatal = false ∧ s.wErr = false ∧ s.wUsed.toNat ≤ 7

/-- A reader command's entry check passes (R100), and the cursor is in its range (R25). -/
abbrev State.ReaderReady (s : State) : Prop := s.bFatal = false ∧ s.posLegal = true

/-- A run's observation at its end (R136). -/
structure Observation where
  responses : List (Option Response)
  sinkBytes : List Byte
  closeAnswers : List SinkAnswer
  pos : Data
  used : BitVec 4
  err : Bool
deriving DecidableEq, Repr

/-- What R136 observes of a state. -/
def State.observe (s : State) : Observation :=
  { responses := s.responses
    sinkBytes := s.accepted
    closeAnswers := s.closeAnswers
    pos := s.rPos
    used := s.wUsed
    err := s.wErr }

/-- The end of a run (R136): the host has issued its last command and received its response. A run in which a command raised
FATAL has no end. DESIGN CHOICE (log 23): R136 does not say where resets listed after the last command stand; here the run ends
once they are performed too, so its `R.pos`, `W.used` and `W.err` are observed after them. -/
def State.runEnded (s : State) : Bool := s.host.isEmpty && s.responses.all Option.isSome

/-- Two states agree on everything but the stale bits `W.cache[7:W.used]` (R22, R31). -/
abbrev StaleEq (s t : State) : Prop :=
  s.pending = t.pending ∧ { s with wCache := 0 } = { t with wCache := 0 }

/-- Two outcomes of a step agree on everything but stale bits. -/
def OutcomeStaleEq : Host.Outcome State Fault Refusal → Host.Outcome State Fault Refusal → Prop
  | .next s, .next t => StaleEq s t
  | .fault f, .fault g => f = g
  | .refused r, .refused q => r = q
  | _, _ => False

/-- What the host's next command is answered with: the last entry of the responses. -/
def State.lastResponse (s : State) : Option (Option Response) := s.responses.getLast?

/-- The host issues a command (R68): its word and its operand. -/
def issue (i : Instr) : HostEvent := .command (encode i).1 (encode i).2

/-- The commands of a write session (R145): one WRITEBITS for each (width, value), then one FLUSH. -/
def writeSession (fs : List (Nat × Data)) : List HostEvent :=
  fs.map (fun f => issue (.writebits f.1 f.2)) ++ [issue .flush]

/-- The commands that read fields of the same widths back, in the same order. -/
def readSession (fs : List (Nat × Data)) : List HostEvent :=
  fs.map fun f => issue (.readbits f.1)

/-- How many bits a list of fields has. -/
def totalBits (fs : List (Nat × Data)) : Nat := (fs.map Prod.fst).sum

/-- How many sink writes a list of transactions holds (R149). -/
def sinkWrites (ts : List Transaction) : Nat :=
  ts.countP fun t => match t with
    | .sinkWrite _ _ => true
    | .sinkClose _ => false
    | .memRead _ _ => false

/-- How many sink closes a list of transactions holds (R149). -/
def sinkCloses (ts : List Transaction) : Nat :=
  ts.countP fun t => match t with
    | .sinkWrite _ _ => false
    | .sinkClose _ => true
    | .memRead _ _ => false

/-- How many source reads a list of transactions holds (R149). -/
def memReads (ts : List Transaction) : Nat :=
  ts.countP fun t => match t with
    | .sinkWrite _ _ => false
    | .sinkClose _ => false
    | .memRead _ _ => true

end Sys2Proof.Machine
end

