-- ==== Sys2Proof/Certificates/Slice0/Obligations.lean ====
section
/-! DEFINITION. The statements about the machine, each from a rule of spec/. Nothing is proved here. -/

open Sys2Proof Sys2Proof.Machine

/-! ### Encoding -/

/-- R61, R64, R68: every well-formed command is what the decoder reads from its own words, every operand at every value. -/
def Obligations.EncodedCommandsDecodeBack : Prop :=
  ∀ i : Instr, i.wf = true → decode (encode i).1 (encode i).2 = .ok i

/-- R61, R64: a word that decodes is the word its command encodes to, with the same DATA where the command reads DATA; so no
two words stand for one command, and what is decoded is well-formed. -/
def Obligations.DecodedCommandsEncodeBack : Prop :=
  ∀ (c : Cmd) (d : Data) (i : Instr), decode c d = .ok i →
    i.wf = true ∧ (encode i).1 = c ∧ (i.usesData = true → (encode i).2 = d)

/-- R65, whole: the words that decode are exactly those that match a row of R64's table and meet its extra condition; and
the five kinds of illegal word the rule lists are illegal. -/
def Obligations.LegalWordsAreTheTablesWords : Prop :=
  ∀ c : Cmd,
    (∀ d : Data, legalWord c = true ↔ ∃ i, decode c d = .ok i) ∧
    (opcodeOf (cmdOp c) = none → legalWord c = false) ∧
    (cmdRsv0 c ≠ 0 ∨ cmdRsv1 c ≠ 0 ∨ cmdRsv2 c ≠ 0 → legalWord c = false) ∧
    ∀ op, opcodeOf (cmdOp c) = some op →
      (opcodeUsesN op = false → cmdN c ≠ 0 → legalWord c = false) ∧
      (opcodeUsesWh op = false → cmdWh c ≠ 0 → legalWord c = false) ∧
      (opcodeUsesN op = true → 64 < (cmdN c).toNat → legalWord c = false)

/-- R62, third bullet: any DATA gives the same command where the command ignores DATA. -/
def Obligations.IgnoredDataDoesNotMatter : Prop :=
  ∀ (c : Cmd) (d d' : Data) (i : Instr),
    decode c d = .ok i → i.usesData = false → decode c d' = .ok i

/-- R70, whole: the nine worked encodings. -/
def Obligations.WorkedEncodings : Prop :=
  encode (.writebits 3 0b101) = (0x00000301, 0x5) ∧
  (∀ x : Data, encode (.writebits 64 x) = (0x00004001, x)) ∧
  (encode (.readbits 4)).1 = 0x00000408 ∧
  (encode (.readbits 64)).1 = 0x00004008 ∧
  encode (.seek .current (BitVec.ofInt 64 (-8))) = (0x00010009, 0xFFFFFFFFFFFFFFF8) ∧
  encode (.seek .start 6) = (0x00000009, 0x6) ∧
  legalWord 0x00004101 = false ∧
  legalWord 0x00000102 = false ∧
  legalWord 0x00020009 = true ∧
  (∀ d : Data, decode 0x00020009 d = .ok (.seek .other2 d)) ∧
  ∀ (d : Data) (s : State), s.bFatal = false →
    exec (.seek .other2 d) s = .next (s.raiseFatal .badWhence)

/-! ### A step, the host's events, resets -/

/-- R7, R21: when the host's next event is a command word that decodes to `i`, the step is `exec` of `i` at the state with
that event taken off the host's list. Nothing else is around `exec`. -/
def Obligations.StepRunsTheDecodedCommand : Prop :=
  ∀ (s : State) (c : Cmd) (d : Data) (rest : List HostEvent) (i : Instr),
    s.host = .command c d :: rest → decode c d = .ok i → step s = exec i (s.withHost rest)

/-- R122: a word that fails R65 answers ILLEGAL with RESULT 0; it makes no transaction and changes no state (the next
state is the same but for the event taken and the response). The second clause is the model's choice, not R122's: an instruction
as syntax whose width no legal word carries answers so too (log entry 16, DEDUCED). -/
def Obligations.IllegalWordsAnswerIllegal : Prop :=
  (∀ (s : State) (c : Cmd) (d : Data) (rest : List HostEvent),
    s.host = .command c d :: rest → s.bFatal = false → legalWord c = false →
      step s = .next ((s.withHost rest).respond .illegal 0)) ∧
  ∀ (i : Instr) (s : State), s.bFatal = false → i.wf = false → exec i s = .next (s.respond .illegal 0)

/-- R27, R124 (point 4), R125 (step 1): while `B.fatal` = 1 every command is stuck, legal or not. That a stuck command is a
named fault of the model is log entry 8. -/
def Obligations.HaltedBlockIsStuck : Prop :=
  (∀ (i : Instr) (s : State), s.bFatal = true → exec i s = .fault .stuck) ∧
  ∀ (s : State) (c : Cmd) (d : Data) (rest : List HostEvent),
    s.host = .command c d :: rest → s.bFatal = true → step s = .fault .stuck

/-- R134, R143: with no command from the host the block is idle and holds its state, however many steps pass. -/
def Obligations.IdleBlockHoldsItsState : Prop :=
  ∀ (k : Nat) (s : State), s.host = [] → Sys2Proof.core.run k s = .next s

/-- R140: the writer reset sets `W.used` and `W.err` to 0, makes no transaction, does not clear `B.fatal`, and leaves the
reader, the platform and everything outside the block alone. Nothing is said of `W.cache`, which the rule leaves
unspecified. The model's choices: that it acts while `B.fatal` = 1 too is log entry 19 (DEDUCED), and that nothing outside the
block changes, the sink under LOOPBACK included, is log entry 17 (DEDUCED, from R30). -/
def Obligations.WriterResetEffect : Prop :=
  ∀ (s : State) (rest : List HostEvent), s.host = .writerReset :: rest →
    ∃ t, step s = .next t ∧ t.wUsed = 0 ∧ t.wErr = false ∧
      t.bus = s.bus ∧ t.bFatal = s.bFatal ∧ t.bFatalCause = s.bFatalCause ∧ t.rPos = s.rPos ∧
      t.platform = s.platform ∧ t.source = s.source ∧ t.sinkScript = s.sinkScript ∧
      t.host = rest ∧ t.responses = s.responses ∧ t.sourceAt = s.sourceAt

/-- R141: the reader reset sets `R.pos` to 0, makes no source transaction and does not clear `B.fatal`. The model's choices:
that it acts while `B.fatal` = 1 too is log entry 19 (DEDUCED), and that everything outside the block stays as it was is log
entry 17 (DEDUCED, from R30). -/
def Obligations.ReaderResetEffect : Prop :=
  ∀ (s : State) (rest : List HostEvent), s.host = .readerReset :: rest →
    step s = .next { s with rPos := 0, host := rest }

/-- R142: the block reset gives every register of R29 its reset value (`W.cache`, unspecified, apart) and touches nothing
outside the block; it is the only way out of a fatal halt; and the model starts in a state with those values. That the sink,
the source's bytes (under LOOPBACK too), the responses and the rest outside the block stay is not R142's but the model's choice,
log entry 17 (DEDUCED, from R30). -/
def Obligations.BlockResetIsTheOnlyWayOutOfTheHalt : Prop :=
  (∀ (s : State) (rest : List HostEvent), s.host = .blockReset :: rest →
    ∃ t, step s = .next t ∧ t.wUsed = 0 ∧ t.wErr = false ∧ t.rPos = 0 ∧
      t.bFatal = false ∧ t.bFatalCause = 0 ∧ t.bus = s.bus ∧ t.platform = s.platform ∧
      t.source = s.source ∧ t.sinkScript = s.sinkScript ∧ t.host = rest ∧
      t.responses = s.responses ∧ t.sourceAt = s.sourceAt) ∧
  (∀ s t : State, s.bFatal = true → step s = .next t →
    (∃ rest, s.host = .blockReset :: rest) ∨ (t.bFatal = true ∧ t.bFatalCause = s.bFatalCause)) ∧
  State.reset.wUsed = 0 ∧ State.reset.wErr = false ∧ State.reset.rPos = 0 ∧
  State.reset.bFatal = false ∧ State.reset.bFatalCause = 0

/-- R29: the machine after reset is in the invariant (legal values of every register, the source in canonical form). -/
def Obligations.ResetMeetsTheInvariant : Prop := State.reset.Inv

/-- R23, R25, R27, R29: every step from a state in the invariant keeps it: `W.used` is at most 7, or 8 with `W.err` = 1;
`R.pos` is in [0, POS_MAX]; the cause is 0 exactly when there is no fatal event; the source keeps its canonical form. -/
def Obligations.StepsKeepTheInvariant : Prop :=
  ∀ s t : State, s.Inv → step s = .next t → t.Inv

/-! ### The writer -/

/-- R82, whole: a WRITEBITS whose sink writes all succeed emits `(u + N) div 8` bytes, the j-th being bits 8j to 8j+7 of
S = P ++ F; afterwards `W.used` is `(u + N) mod 8` and the pending bits are the last of S. It answers OK, RESULT 0; the next
state is the state before it but for those writes, the two registers and the response. -/
def Obligations.WritebitsEmitsTheJoinedString : Prop :=
  ∀ (s : State) (n : Nat) (value : Data), s.WriterReady → n ≤ 64 →
    (∀ k < emitCount s n, s.answerAt k = .ok) →
    ∃ (c : Byte) (u : BitVec 4),
      exec (.writebits n value) s =
        .next (((s.afterWrites (emittedBytes s n value (emitCount s n))).withCache c u).respond .ok 0) ∧
      u.toNat = (s.wUsed.toNat + n) % 8 ∧
      c.toNat % 2 ^ u.toNat = joined s n value % 2 ^ u.toNat

/-- R81 (corner case e), R123: when write number `i` of a WRITEBITS is the first to fail, the bytes before it stay emitted,
`W.used` is 8, `W.cache` is the byte that failed, `W.err` is 1, and the answer is IO_ERR_WRITE, RESULT 0. -/
def Obligations.WritebitsStopsAtTheFirstFailedWrite : Prop :=
  ∀ (s : State) (n : Nat) (value : Data) (i : Nat), s.WriterReady → n ≤ 64 →
    i < emitCount s n → (∀ k < i, s.answerAt k = .ok) → s.answerAt i = .err →
    exec (.writebits n value) s =
      .next ((((s.afterWrites (emittedBytes s n value i)).afterFailedWrite (emittedByte s n value i)).withCache
        (emittedByte s n value i) 8).respond .ioErrWrite 0)

/-- R81 (corner case a): WRITEBITS of width 0 answers OK and changes nothing. -/
def Obligations.ZeroWidthWriteIsANoOp : Prop :=
  ∀ (s : State) (value : Data), s.bFatal = false → s.wErr = false →
    exec (.writebits 0 value) s = .next (s.respond .ok 0)

/-- R62 (first bullet), R81 (corner case b): only the low N bits of the value matter, in every state. -/
def Obligations.WritebitsIgnoresHighBits : Prop :=
  ∀ (s : State) (n : Nat) (v w : Data), v.toNat % 2 ^ n = w.toNat % 2 ^ n →
    exec (.writebits n v) s = exec (.writebits n w) s

/-- R83, one command: a WRITEBITS whose sink writes all succeed adds the low N bits of its value, most significant first, to
the end of the writer stream. -/
def Obligations.WritebitsExtendsTheWriterStream : Prop :=
  ∀ (s : State) (n : Nat) (value : Data), s.WriterReady → n ≤ 64 →
    (∀ k < emitCount s n, s.answerAt k = .ok) →
    ∃ t, exec (.writebits n value) s = .next t ∧
      t.writerStream = s.writerStream ++ bitsOf n value.toNat

/-- R83, a session: WRITEBITS of any fields from a writer with `W.used` = 0, then one FLUSH, every sink write succeeding: the
sink receives exactly the fields' bits one after the other, then zero bits up to the next multiple of 8. Every command answers
OK. -/
def Obligations.WriteSessionSpellsItsFields : Prop :=
  ∀ (s : State) (fs : List (Nat × Data)), s.bFatal = false → s.wErr = false → s.wUsed = 0 →
    (∀ f ∈ fs, f.1 ≤ 64) → (∀ k < (totalBits fs + 7) / 8, s.answerAt k = .ok) →
    ∃ t, Sys2Proof.core.run (fs.length + 1) (s.withHost (writeSession fs)) = .next t ∧
      t.accepted.flatMap (fun b => bitsOf 8 b.toNat) =
        s.accepted.flatMap (fun b => bitsOf 8 b.toNat) ++
          fs.flatMap (fun f => bitsOf f.1 f.2.toNat) ++
          List.replicate ((8 - totalBits fs % 8) % 8) false ∧
      t.responses = s.responses ++
        List.replicate (fs.length + 1) (some { status := .ok, result := 0 })

/-- R84 (corner case a): FLUSH with nothing pending answers OK and changes nothing. -/
def Obligations.FlushWithNothingPending : Prop :=
  ∀ s : State, s.bFatal = false → s.wErr = false → s.wUsed = 0 →
    exec .flush s = .next (s.respond .ok 0)

/-- R84, R85: a successful FLUSH with `u` pending bits P emits `P << (8 − u)`, leaves that byte in `W.cache`, and sets `W.used`
to 0 exactly when FLUSH_CLEARS_USED; it answers OK, RESULT 0, and changes nothing else. -/
def Obligations.FlushEmitsThePaddedByte : Prop :=
  ∀ s : State, s.WriterReady → s.wUsed ≠ 0 → s.answerAt 0 = .ok →
    exec .flush s =
      .next (((s.afterWrites [BitVec.ofNat 8 (s.pending <<< (8 - s.wUsed.toNat))]).withCache
        (BitVec.ofNat 8 (s.pending <<< (8 - s.wUsed.toNat)))
        (if s.platform.flushClearsUsed = true then 0 else s.wUsed)).respond .ok 0)

/-- R84, R123: a FLUSH whose write fails sets `W.err`, keeps `W.used`, leaves the shifted byte in `W.cache`, answers
IO_ERR_WRITE, RESULT 0, and changes nothing else. CLOSE does the same and makes no SinkClose (R87, corner case b). -/
def Obligations.FlushFailureIsClosesToo : Prop :=
  ∀ s : State, s.WriterReady → s.wUsed ≠ 0 → s.answerAt 0 = .err →
    exec .flush s =
      .next (((s.afterFailedWrite (BitVec.ofNat 8 (s.pending <<< (8 - s.wUsed.toNat)))).withCache
        (BitVec.ofNat 8 (s.pending <<< (8 - s.wUsed.toNat))) s.wUsed).respond .ioErrWrite 0) ∧
    exec .close s = exec .flush s

/-- R86. With FLUSH_CLEARS_USED: after a successful FLUSH `W.used` is 0, a second FLUSH is a no-op, and a later
WRITEBITS starts a new byte. Without it: `W.used` stays u and `W.cache` holds the padded byte B; a second FLUSH emits
`(B << (8 − u))[7:0]`, which is 0x00 when u ≤ 4; a WRITEBITS of N ≥ 8 − u bits first emits
`(B[u−1:0] << (8 − u)) | f`, f the first 8 − u bits of its field. -/
def Obligations.FlushAgainAndWriteAfterFlush : Prop :=
  ∀ s : State, s.WriterReady → s.wUsed ≠ 0 → s.answerAt 0 = .ok →
    ∃ t, exec .flush s = .next t ∧
      (s.platform.flushClearsUsed = true →
        t.wUsed = 0 ∧ exec .flush t = .next (t.respond .ok 0) ∧
        ∀ n value, joined t n value = value.toNat % 2 ^ n) ∧
      (s.platform.flushClearsUsed = false →
        t.wUsed = s.wUsed ∧
        t.wCache = BitVec.ofNat 8 (s.pending <<< (8 - s.wUsed.toNat)) ∧
        t.accepted = s.accepted ++ [t.wCache] ∧
        (s.wUsed.toNat ≤ 4 → BitVec.ofNat 8 (t.wCache.toNat <<< (8 - s.wUsed.toNat)) = 0) ∧
        (s.answerAt 1 = .ok →
          ∃ t', exec .flush t = .next t' ∧ t'.wUsed = s.wUsed ∧
            t'.wCache = BitVec.ofNat 8 (t.wCache.toNat <<< (8 - s.wUsed.toNat)) ∧
            t'.accepted = t.accepted ++ [t'.wCache]) ∧
        ∀ (n : Nat) (value : Data), 8 - s.wUsed.toNat ≤ n → n ≤ 64 →
          (∀ k < emitCount t n, t.answerAt k = .ok) →
          ∃ t' later, exec (.writebits n value) t = .next t' ∧
            t'.accepted = t.accepted ++
              BitVec.ofNat 8 (((t.wCache.toNat % 2 ^ s.wUsed.toNat) <<< (8 - s.wUsed.toNat)) |||
                (value.toNat % 2 ^ n) >>> (n - (8 - s.wUsed.toNat))) :: later)

/-- R87, D9: where the sink has no close capability, CLOSE does what FLUSH does, in every state. -/
def Obligations.CloseWithoutCapabilityIsFlush : Prop :=
  ∀ s : State, s.platform.sinkHasClose = false → exec .close s = exec .flush s

/-- R87: where the sink has a close capability, a CLOSE whose flush succeeds makes one SinkClose after the flush; its answer
decides between OK and IO_ERR_CLOSE, and a close failure changes no writer state. -/
def Obligations.CloseFlushesThenCloses : Prop :=
  ∀ s : State, s.WriterReady → s.platform.sinkHasClose = true →
    (s.wUsed ≠ 0 → s.answerAt 0 = .ok) →
    ∃ t : State, exec .flush s = .next (t.respond .ok 0) ∧ t.wErr = false ∧
      t.answerAt 0 = s.answerAt (if s.wUsed = 0 then 0 else 1) ∧
      exec .close s =
        .next (((t.answersDrawn 1).record (.sinkClose (t.answerAt 0))).respond
          (if t.answerAt 0 = .ok then .ok else .ioErrClose) 0)

/-- R88, whole: CLOSE with `W.used` = 0 makes no SinkWrite; with FLUSH_CLEARS_USED every successful CLOSE leaves `W.used` = 0,
so a second CLOSE emits nothing; without it a second CLOSE after one with pending bits emits a further byte. -/
def Obligations.CloseAgain : Prop :=
  (∀ s t : State, s.wUsed = 0 → exec .close s = .next t →
    t.accepted = s.accepted ∧ sinkWrites t.bus = sinkWrites s.bus) ∧
  (∀ s t : State, s.platform.flushClearsUsed = true → exec .close s = .next t →
    t.lastResponse = some (some { status := .ok, result := 0 }) →
    t.wUsed = 0 ∧ ∀ t', exec .close t = .next t' → t'.accepted = t.accepted) ∧
  ∀ s t : State, s.WriterReady → s.platform.flushClearsUsed = false → s.wUsed ≠ 0 →
    exec .close s = .next t → t.wErr = false → t.answerAt 0 = .ok →
    ∃ t', exec .close t = .next t' ∧
      t'.accepted = t.accepted ++ [BitVec.ofNat 8 (t.wCache.toNat <<< (8 - s.wUsed.toNat))]

/-- R121: while `W.err` = 1 a writer command answers WRITER_UNUSABLE, makes no transaction and changes no state; a
writer reset or a block reset ends this. That the writer reset does so while `B.fatal` = 1 too is the model's choice, log entry
19 (DEDUCED). -/
def Obligations.PoisonedWriterAnswersUnusable : Prop :=
  (∀ (i : Instr) (s : State), i.isWriter = true → i.wf = true → s.bFatal = false → s.wErr = true →
    exec i s = .next (s.respond .writerUnusable 0)) ∧
  ∀ (s : State) (rest : List HostEvent),
    (s.host = .writerReset :: rest ∨ s.host = .blockReset :: rest) →
    ∃ t, step s = .next t ∧ t.wErr = false

/-- R2, R89, R132: a writer command leaves the reader, the halt, the platform, the source's contents and the host's list
alone, reads nothing from the source, only adds to the sink, and adds one response. -/
def Obligations.WriterCommandFrame : Prop :=
  ∀ (i : Instr) (s t : State), i.isWriter = true → exec i s = .next t →
    t.rPos = s.rPos ∧ t.bFatal = s.bFatal ∧ t.bFatalCause = s.bFatalCause ∧
    t.platform = s.platform ∧ t.source = s.source ∧ t.host = s.host ∧
    memReads t.bus = memReads s.bus ∧ s.accepted <+: t.accepted ∧
    (∃ r, t.responses = s.responses ++ [some r]) ∧
    (s.platform.loopback = false → t.sourceAt = s.sourceAt)

/-- R40, R54: the bytes a command stores are the sink's bytes from number `accepted.length` on, at most `storedCount` of them
(none for a reader command or a FLUSH or CLOSE with nothing pending); every other source address reads as before it, under
LOOPBACK too. -/
def Obligations.OtherBytesReadAsBefore : Prop :=
  ∀ (i : Instr) (s t : State), s.usedLegal = true → exec i s = .next t →
    t.accepted.length ≤ s.accepted.length + storedCount i s ∧
    ∀ a, a < s.accepted.length ∨ s.accepted.length + storedCount i s ≤ a →
      t.sourceAt a = s.sourceAt a

/-! ### The reader -/

/-- R103, R104, whole: a READBITS of N bits at p that does not fail returns the big-endian number of stream bits p to p+N−1,
moves the cursor to p + N, and reads byte addresses p div 8 to (p + N − 1) div 8, once each, in increasing order (the one
address p div 8 when N = 0), never more than 9; the next state is the state before it but for that. -/
def Obligations.ReadbitsReturnsTheField : Prop :=
  ∀ (s : State) (n : Nat), s.ReaderReady → n ≤ 64 → s.rPos.toInt + n ≤ Config.posMax →
    (∀ a ∈ readAddrs s.rPos.toNat n, (s.sourceAt a).isSome = true) →
    ∃ t, exec (.readbits n) s =
        .next (t.respond .ok (BitVec.ofNat 64 (fieldAt s.sourceAt s.rPos.toNat n))) ∧
      t = s.afterReads n (readAddrs s.rPos.toNat n) ∧
      t.rPos.toNat = s.rPos.toNat + n ∧
      fieldAt s.sourceAt s.rPos.toNat n < 2 ^ n ∧
      (1 ≤ n → readAddrs s.rPos.toNat n =
        List.range' (s.rPos.toNat / 8) ((s.rPos.toNat + n - 1) / 8 - s.rPos.toNat / 8 + 1)) ∧
      (1 ≤ n → (readAddrs s.rPos.toNat n).length = (s.rPos.toNat % 8 + n + 7) / 8) ∧
      (n = 0 → readAddrs s.rPos.toNat n = [s.rPos.toNat / 8]) ∧
      (readAddrs s.rPos.toNat n).length ≤ 9

/-- R106, whole: when read number `i` of a READBITS is the first to fail, the block halts with FATAL(READ_FAIL) after that
read; `R.pos` is unchanged if it was the first read, and else 8 times the address of the read that failed. No RESULT is
returned. -/
def Obligations.ReadbitsHaltsAtTheFirstFailedRead : Prop :=
  ∀ (s : State) (n i : Nat), s.ReaderReady → n ≤ 64 → s.rPos.toInt + n ≤ Config.posMax →
    i < readCount s.rPos.toNat n →
    (∀ j < i, (s.sourceAt (s.rPos.toNat / 8 + j)).isSome = true) →
    s.sourceAt (s.rPos.toNat / 8 + i) = none →
    ∃ t, exec (.readbits n) s = .next (t.raiseFatal .readFail) ∧
      t = s.afterReads (passedBefore s.rPos.toNat i) (List.range' (s.rPos.toNat / 8) (i + 1)) ∧
      (i = 0 → t.rPos = s.rPos) ∧
      (0 < i → t.rPos.toNat = 8 * (s.rPos.toNat / 8 + i))

/-- R101, R125 (step 5): a READBITS that would pass POS_MAX halts with FATAL(RANGE) before any read; nothing else changes. -/
def Obligations.ReadbitsPastTheEndHaltsBeforeReading : Prop :=
  ∀ (s : State) (n : Nat), s.bFatal = false → n ≤ 64 → Config.posMax < s.rPos.toInt + n →
    exec (.readbits n) s = .next (s.raiseFatal .range)

/-- R101 (corner case a), D13: READBITS of width 0 makes one read, returns 0 and leaves the cursor. -/
def Obligations.ZeroWidthReadReadsOneByte : Prop :=
  ∀ s : State, s.ReaderReady → (s.sourceAt (s.rPos.toNat / 8)).isSome = true →
    exec (.readbits 0) s =
      .next ((s.record (.memRead (s.rPos.toNat / 8) (s.sourceAt (s.rPos.toNat / 8)))).respond .ok 0)

/-- R105: what the shifts and masks of READBITS accumulate for N bits is below 2^N, so the 64-bit accumulator never overflows
for a legal N; in every state. -/
def Obligations.AccumulatorNeverOverflows : Prop :=
  ∀ (s t : State) (n v : Nat), readField n s = (some v, t) → v < 2 ^ n

/-- R102, whole: the first-byte mask at every bit offset, and that it keeps the 8 − bo low bits. -/
def Obligations.FirstByteMaskTable : Prop :=
  (List.range 8).map firstByteMask = [0xFF, 0x7F, 0x3F, 0x1F, 0x0F, 0x07, 0x03, 0x01] ∧
  ∀ (b : Byte) (bo : Nat), bo ≤ 7 → unconsumed b bo = b.toNat % 2 ^ (8 - bo)

/-- R107: SEEK with a supported whence and a target in [0, POS_MAX] sets the cursor to it and returns it; the target is the
offset, or the exact sum of the cursor and the offset, both read as signed. Nothing else changes. -/
def Obligations.SeekSetsAndReturnsTheCursor : Prop :=
  ∀ (s : State) (offset : Data), s.bFatal = false →
    (0 ≤ offset.toInt →
      exec (.seek .start offset) s = .next ({ s with rPos := offset }.respond .ok offset)) ∧
    (0 ≤ s.rPos.toInt + offset.toInt → s.rPos.toInt + offset.toInt ≤ Config.posMax →
      exec (.seek .current offset) s =
        .next ({ s with rPos := s.rPos + offset }.respond .ok (s.rPos + offset)) ∧
      (s.rPos + offset).toInt = s.rPos.toInt + offset.toInt)

/-- R108, whole: `SEEK 0, start` leaves the cursor 0; `SEEK k, current` leaves it p + k and returns p + k; a following
READBITS then reads from p + k. -/
def Obligations.SeekThenReadReadsThere : Prop :=
  (∀ s : State, s.bFatal = false →
    ∃ t, exec (.seek .start 0) s = .next t ∧ t.rPos = 0) ∧
  ∀ (s : State) (k : Data), s.ReaderReady → 0 ≤ s.rPos.toInt + k.toInt →
    s.rPos.toInt + k.toInt ≤ Config.posMax →
    ∃ t, exec (.seek .current k) s = .next t ∧ t.rPos.toInt = s.rPos.toInt + k.toInt ∧
      t.lastResponse = some (some { status := .ok, result := t.rPos }) ∧
      ∀ n : Nat, n ≤ 64 → t.rPos.toInt + n ≤ Config.posMax →
        (∀ a ∈ readAddrs (s.rPos.toInt + k.toInt).toNat n, (s.sourceAt a).isSome = true) →
        ∃ t', exec (.readbits n) t = .next t' ∧
          t'.lastResponse = some (some
            { status := .ok
              result := BitVec.ofNat 64 (fieldAt s.sourceAt (s.rPos.toInt + k.toInt).toNat n) })

/-- R107, R71, R125 (step 4): SEEK with WH = 2 or 3 halts with FATAL(BAD_WHENCE) whatever its offset; the cursor is
unchanged and nothing else changes. -/
def Obligations.UnsupportedWhenceHalts : Prop :=
  ∀ (s : State) (offset : Data), s.bFatal = false →
    exec (.seek .other2 offset) s = .next (s.raiseFatal .badWhence) ∧
    exec (.seek .other3 offset) s = .next (s.raiseFatal .badWhence)

/-- R107, R109: SEEK and SKIP to a target below 0 or above POS_MAX halt with FATAL(RANGE), the cursor unchanged. -/
def Obligations.CursorOutOfRangeHalts : Prop :=
  ∀ (s : State) (offset : Data), s.bFatal = false →
    (offset.toInt < 0 → exec (.seek .start offset) s = .next (s.raiseFatal .range)) ∧
    (s.rPos.toInt + offset.toInt < 0 ∨ Config.posMax < s.rPos.toInt + offset.toInt →
      exec (.seek .current offset) s = .next (s.raiseFatal .range) ∧
      exec (.skip offset) s = .next (s.raiseFatal .range))

/-- R109: SKIP to a target in [0, POS_MAX] moves the cursor by the signed offset, answers OK with RESULT 0, makes no read and
changes nothing else. -/
def Obligations.SkipMovesTheCursor : Prop :=
  ∀ (s : State) (offset : Data), s.bFatal = false → 0 ≤ s.rPos.toInt + offset.toInt →
    s.rPos.toInt + offset.toInt ≤ Config.posMax →
    exec (.skip offset) s = .next ({ s with rPos := s.rPos + offset }.respond .ok 0)

/-- R110, whole: SKIP k and `SEEK k, current` leave the same cursor and raise the same FATAL(RANGE) cases; they differ only in
RESULT, the new position for SEEK and 0 for SKIP. -/
def Obligations.SkipAgreesWithRelativeSeek : Prop :=
  ∀ (s : State) (k : Data), s.bFatal = false →
    ∃ t u, exec (.skip k) s = .next t ∧ exec (.seek .current k) s = .next u ∧
      { t with responses := [] } = { u with responses := [] } ∧
      (t.bFatal = true → t = u ∧ t.bFatalCause = causeCode .range) ∧
      (t.bFatal = false →
        t.responses = s.responses ++ [some { status := .ok, result := 0 }] ∧
        u.responses = s.responses ++ [some { status := .ok, result := u.rPos }])

/-- R111: TELL returns the cursor and changes nothing; the cursor being in its range, bit 63 of RESULT is 0. -/
def Obligations.TellReturnsTheCursor : Prop :=
  ∀ s : State, s.bFatal = false →
    exec .tell s = .next (s.respond .ok s.rPos) ∧
    (s.posLegal = true → s.rPos.getLsbD 63 = false)

/-- R48, R112, R132: a reader command leaves the writer, the sink and its answers, the platform, every byte of the source and
the host's list alone, and adds one response or none given. -/
def Obligations.ReaderCommandFrame : Prop :=
  ∀ (i : Instr) (s t : State), i.isWriter = false → exec i s = .next t →
    t.wCache = s.wCache ∧ t.wUsed = s.wUsed ∧ t.wErr = s.wErr ∧
    t.platform = s.platform ∧ t.source = s.source ∧ t.host = s.host ∧
    t.sinkScript = s.sinkScript ∧ t.draws = s.draws ∧
    t.accepted = s.accepted ∧ t.closeAnswers = s.closeAnswers ∧ sinkWrites t.bus = sinkWrites s.bus ∧
    t.sourceAt = s.sourceAt ∧ (∃ r, t.responses = s.responses ++ [r])

/-! ### The whole machine -/

/-- R124: where a command raises FATAL it is a reader command; the halt and its cause (1, 2 or 3, by the commands R120 names)
are recorded, no response is given, the writer's registers and the sink are as before, so no pending bit is emitted. -/
def Obligations.FatalEntry : Prop :=
  ∀ (i : Instr) (s t : State), s.bFatal = false → exec i s = .next t → t.bFatal = true →
    t.responses = s.responses ++ [none] ∧
    t.wCache = s.wCache ∧ t.wUsed = s.wUsed ∧ t.wErr = s.wErr ∧ t.accepted = s.accepted ∧
    ((t.bFatalCause = causeCode .readFail ∧ ∃ n, i = .readbits n) ∨
     (t.bFatalCause = causeCode .badWhence ∧
       ∃ o, i = .seek .other2 o ∨ i = .seek .other3 o) ∨
     (t.bFatalCause = causeCode .range ∧ t.rPos = s.rPos ∧ t.bus = s.bus ∧
       ((∃ n, i = .readbits n) ∨ (∃ wh o, i = .seek wh o) ∨ ∃ o, i = .skip o)))

/-- R28, R120: a command gives exactly one response, or none exactly when it raises FATAL; RESULT is 0 for every status but
OK, and for WRITEBITS, FLUSH, CLOSE and SKIP; and each status comes only from the commands R120 names. -/
def Obligations.OneResponsePerCommand : Prop :=
  ∀ (i : Instr) (s t : State), exec i s = .next t →
    ∃ r, t.responses = s.responses ++ [r] ∧ (r = none ↔ t.bFatal = true) ∧
      ∀ st v, r = some { status := st, result := v } →
        (st ≠ .ok ∨ i.isWriter = true ∨ (∃ o, i = .skip o) → v = 0) ∧
        (st = .writerUnusable ∨ st = .ioErrWrite → i.isWriter = true) ∧
        (st = .ioErrClose → i = .close)

/-- R33, R55: no step changes a parameter of the platform or the source's contents. -/
def Obligations.ParametersNeverChange : Prop :=
  ∀ s t : State, step s = .next t → t.platform = s.platform ∧ t.source = s.source

/-- R40, R47, R48, R51: a step only adds transactions after those already made; so the sink's accepted sequence only grows at
its end, and what the source answered stays answered. -/
def Obligations.TransactionsAreNeverUndone : Prop :=
  ∀ s t : State, step s = .next t →
    s.bus <+: t.bus ∧ s.accepted <+: t.accepted ∧ s.closeAnswers <+: t.closeAnswers ∧
    ∀ a b, s.sourceAt a = some b → t.sourceAt a = some b

/-- R46, R149: the bounds on one command's transactions. -/
def Obligations.TransactionBounds : Prop :=
  ∀ (i : Instr) (s t : State), s.usedLegal = true → exec i s = .next t →
    ∃ ts, t.bus = s.bus ++ ts ∧
      match i with
      | .writebits _ _ => sinkWrites ts ≤ 8 ∧ sinkCloses ts = 0 ∧ memReads ts = 0
      | .flush => sinkWrites ts ≤ 1 ∧ sinkCloses ts = 0 ∧ memReads ts = 0
      | .close => sinkWrites ts ≤ 1 ∧ sinkCloses ts ≤ 1 ∧ memReads ts = 0
      | .readbits _ => sinkWrites ts = 0 ∧ sinkCloses ts = 0 ∧ memReads ts ≤ 9
      | .seek _ _ => ts = []
      | .skip _ => ts = []
      | .tell => ts = []

/-- R54: under LOOPBACK source byte k is the sink's k-th accepted byte; pending bits are never visible; a READBITS that starts
at an address the sink has not filled halts with FATAL(READ_FAIL). Without it the sink has no part in the source. -/
def Obligations.LoopbackShowsAcceptedBytesOnly : Prop :=
  (∀ (s : State) (k : Nat), s.platform.loopback = true → k < 2 ^ 60 → s.sourceAt k = s.accepted[k]?) ∧
  (∀ (s : State) (c : Byte) (u : BitVec 4), (s.withCache c u).sourceAt = s.sourceAt) ∧
  (∀ (s : State) (ts : List Transaction), s.platform.loopback = false →
    { s with bus := ts }.sourceAt = s.sourceAt) ∧
  ∀ (s : State) (n : Nat), s.ReaderReady → n ≤ 64 → s.rPos.toInt + n ≤ Config.posMax →
    s.platform.loopback = true → s.accepted.length ≤ s.rPos.toNat / 8 →
    ∃ t : State, exec (.readbits n) s = .next (t.raiseFatal .readFail) ∧ t.rPos = s.rPos

/-- R31: the stale bits of `W.cache` are never seen: two states that differ in nothing else are observed alike, and their
steps end alike and again differ in nothing else. -/
def Obligations.StaleBitsAreNeverSeen : Prop :=
  ∀ s t : State, StaleEq s t → s.observe = t.observe ∧ OutcomeStaleEq (step s) (step t)

/-- R132, without LOOPBACK: if a writer command and then a reader command raise no FATAL, they answer in the other order too, and
the writer's registers, the cursor, the sink and the two responses are the same. Under LOOPBACK, which makes the sink the source,
that order alone is not enough (the reader may read what the writer has just emitted): see
`ReaderThenWriterCommandsCommute`. -/
def Obligations.WriterAndReaderCommandsCommute : Prop :=
  ∀ (w r : Instr) (s s1 s2 : State), w.isWriter = true → r.isWriter = false →
    s.platform.loopback = false → exec w s = .next s1 → exec r s1 = .next s2 → s2.bFatal = false →
    ∃ s3 s4, exec r s = .next s3 ∧ exec w s3 = .next s4 ∧
      s4.wCache = s2.wCache ∧ s4.wUsed = s2.wUsed ∧ s4.wErr = s2.wErr ∧ s4.rPos = s2.rPos ∧
      s4.bFatal = s2.bFatal ∧ s4.accepted = s2.accepted ∧ s4.closeAnswers = s2.closeAnswers ∧
      s4.sinkScript = s2.sinkScript ∧ s4.draws = s2.draws ∧
      ∃ a b, s2.responses = s.responses ++ [a, b] ∧ s4.responses = s.responses ++ [b, a]

/-- The source's round trip (95_test_vectors.md, R54, R83, R103): with LOOPBACK, from a writer with nothing pending and a
cursor at the end of what the sink holds, any fields of 1 to 64 bits written in order, flushed, and read back in the same order
and widths give the values' low bits exactly, every sink write succeeding and the stream staying below POS_MAX. A field of
width 0 is left out because reading it at the very end of the stream reads a byte that is not there (R101 corner case a, V24). -/
def Obligations.RoundTripThroughLoopback : Prop :=
  ∀ (s : State) (fs : List (Nat × Data)), s.bFatal = false → s.wErr = false → s.wUsed = 0 →
    s.platform.loopback = true → s.rPos.toNat = 8 * s.accepted.length →
    (∀ f ∈ fs, 1 ≤ f.1 ∧ f.1 ≤ 64) → s.rPos.toNat + totalBits fs < 2 ^ 63 →
    (∀ k < (totalBits fs + 7) / 8, s.answerAt k = .ok) →
    ∃ t, Sys2Proof.core.run (fs.length + 1 + fs.length)
        (s.withHost (writeSession fs ++ readSession fs)) = .next t ∧
      t.responses = s.responses ++
        List.replicate (fs.length + 1) (some { status := .ok, result := 0 }) ++
        fs.map (fun f => some { status := .ok, result := BitVec.ofNat 64 (f.2.toNat % 2 ^ f.1) }) ∧
      t.rPos.toNat = s.rPos.toNat + totalBits fs

/-- R132, with LOOPBACK or without: if a reader command and then a writer command raise no FATAL, they answer in the other order
too, and the writer's registers, the cursor, the sink and the two responses are the same. -/
def Obligations.ReaderThenWriterCommandsCommute : Prop :=
  ∀ (w r : Instr) (s s3 s4 : State), w.isWriter = true → r.isWriter = false →
    exec r s = .next s3 → s3.bFatal = false → exec w s3 = .next s4 →
    ∃ s1 s2, exec w s = .next s1 ∧ exec r s1 = .next s2 ∧
      s2.wCache = s4.wCache ∧ s2.wUsed = s4.wUsed ∧ s2.wErr = s4.wErr ∧ s2.rPos = s4.rPos ∧
      s2.bFatal = s4.bFatal ∧ s2.accepted = s4.accepted ∧ s2.closeAnswers = s4.closeAnswers ∧
      s2.sinkScript = s4.sinkScript ∧ s2.draws = s4.draws ∧
      ∃ a b, s2.responses = s.responses ++ [a, b] ∧ s4.responses = s.responses ++ [b, a]
end

