-- ==== Sys2Proof/Laws/State.lean ====
section
/-! SUPPORT. One lemma per field per update of the state, and per view that an update leaves alone. -/

namespace Sys2Proof.Machine

/-! ### record -/

@[simp] theorem record_wCache (t : Transaction) (s : State) : (s.record t).wCache = s.wCache := rfl
@[simp] theorem record_wUsed (t : Transaction) (s : State) : (s.record t).wUsed = s.wUsed := rfl
@[simp] theorem record_wErr (t : Transaction) (s : State) : (s.record t).wErr = s.wErr := rfl
@[simp] theorem record_rPos (t : Transaction) (s : State) : (s.record t).rPos = s.rPos := rfl
@[simp] theorem record_bFatal (t : Transaction) (s : State) : (s.record t).bFatal = s.bFatal := rfl
@[simp] theorem record_bFatalCause (t : Transaction) (s : State) : (s.record t).bFatalCause = s.bFatalCause := rfl
@[simp] theorem record_platform (t : Transaction) (s : State) : (s.record t).platform = s.platform := rfl
@[simp] theorem record_source (t : Transaction) (s : State) : (s.record t).source = s.source := rfl
@[simp] theorem record_bus (t : Transaction) (s : State) : (s.record t).bus = s.bus ++ [t] := rfl
@[simp] theorem record_sinkScript (t : Transaction) (s : State) : (s.record t).sinkScript = s.sinkScript := rfl
@[simp] theorem record_draws (t : Transaction) (s : State) : (s.record t).draws = s.draws := rfl
@[simp] theorem record_host (t : Transaction) (s : State) : (s.record t).host = s.host := rfl
@[simp] theorem record_responses (t : Transaction) (s : State) : (s.record t).responses = s.responses := rfl
@[simp] theorem record_byteOffset (t : Transaction) (s : State) : (s.record t).byteOffset = s.byteOffset := rfl
@[simp] theorem record_bitOffset (t : Transaction) (s : State) : (s.record t).bitOffset = s.bitOffset := rfl
@[simp] theorem record_nextAnswer (t : Transaction) (s : State) : (s.record t).nextAnswer = s.nextAnswer := rfl
@[simp] theorem record_answerAt (t : Transaction) (s : State) : (s.record t).answerAt = s.answerAt := rfl

/-! ### shiftIn -/

@[simp] theorem shiftIn_wCache (c b : Nat) (s : State) : (s.shiftIn c b).wCache = shiftedIn s.wCache c b := rfl
@[simp] theorem shiftIn_wUsed (c b : Nat) (s : State) : (s.shiftIn c b).wUsed = BitVec.ofNat 4 (s.wUsed.toNat + c) := rfl
@[simp] theorem shiftIn_wErr (c b : Nat) (s : State) : (s.shiftIn c b).wErr = s.wErr := rfl
@[simp] theorem shiftIn_rPos (c b : Nat) (s : State) : (s.shiftIn c b).rPos = s.rPos := rfl
@[simp] theorem shiftIn_bFatal (c b : Nat) (s : State) : (s.shiftIn c b).bFatal = s.bFatal := rfl
@[simp] theorem shiftIn_bFatalCause (c b : Nat) (s : State) : (s.shiftIn c b).bFatalCause = s.bFatalCause := rfl
@[simp] theorem shiftIn_platform (c b : Nat) (s : State) : (s.shiftIn c b).platform = s.platform := rfl
@[simp] theorem shiftIn_source (c b : Nat) (s : State) : (s.shiftIn c b).source = s.source := rfl
@[simp] theorem shiftIn_bus (c b : Nat) (s : State) : (s.shiftIn c b).bus = s.bus := rfl
@[simp] theorem shiftIn_sinkScript (c b : Nat) (s : State) : (s.shiftIn c b).sinkScript = s.sinkScript := rfl
@[simp] theorem shiftIn_draws (c b : Nat) (s : State) : (s.shiftIn c b).draws = s.draws := rfl
@[simp] theorem shiftIn_host (c b : Nat) (s : State) : (s.shiftIn c b).host = s.host := rfl
@[simp] theorem shiftIn_responses (c b : Nat) (s : State) : (s.shiftIn c b).responses = s.responses := rfl
@[simp] theorem shiftIn_accepted (c b : Nat) (s : State) : (s.shiftIn c b).accepted = s.accepted := rfl
@[simp] theorem shiftIn_closeAnswers (c b : Nat) (s : State) : (s.shiftIn c b).closeAnswers = s.closeAnswers := rfl
@[simp] theorem shiftIn_sourceAt (c b : Nat) (s : State) : (s.shiftIn c b).sourceAt = s.sourceAt := rfl
@[simp] theorem shiftIn_byteOffset (c b : Nat) (s : State) : (s.shiftIn c b).byteOffset = s.byteOffset := rfl
@[simp] theorem shiftIn_bitOffset (c b : Nat) (s : State) : (s.shiftIn c b).bitOffset = s.bitOffset := rfl
@[simp] theorem shiftIn_nextAnswer (c b : Nat) (s : State) : (s.shiftIn c b).nextAnswer = s.nextAnswer := rfl
@[simp] theorem shiftIn_answerAt (c b : Nat) (s : State) : (s.shiftIn c b).answerAt = s.answerAt := rfl

/-! ### padCache -/

@[simp] theorem padCache_wCache (s : State) : (s.padCache).wCache = padded s.wCache s.wUsed.toNat := rfl
@[simp] theorem padCache_wUsed (s : State) : (s.padCache).wUsed = s.wUsed := rfl
@[simp] theorem padCache_wErr (s : State) : (s.padCache).wErr = s.wErr := rfl
@[simp] theorem padCache_rPos (s : State) : (s.padCache).rPos = s.rPos := rfl
@[simp] theorem padCache_bFatal (s : State) : (s.padCache).bFatal = s.bFatal := rfl
@[simp] theorem padCache_bFatalCause (s : State) : (s.padCache).bFatalCause = s.bFatalCause := rfl
@[simp] theorem padCache_platform (s : State) : (s.padCache).platform = s.platform := rfl
@[simp] theorem padCache_source (s : State) : (s.padCache).source = s.source := rfl
@[simp] theorem padCache_bus (s : State) : (s.padCache).bus = s.bus := rfl
@[simp] theorem padCache_sinkScript (s : State) : (s.padCache).sinkScript = s.sinkScript := rfl
@[simp] theorem padCache_draws (s : State) : (s.padCache).draws = s.draws := rfl
@[simp] theorem padCache_host (s : State) : (s.padCache).host = s.host := rfl
@[simp] theorem padCache_responses (s : State) : (s.padCache).responses = s.responses := rfl
@[simp] theorem padCache_accepted (s : State) : (s.padCache).accepted = s.accepted := rfl
@[simp] theorem padCache_closeAnswers (s : State) : (s.padCache).closeAnswers = s.closeAnswers := rfl
@[simp] theorem padCache_sourceAt (s : State) : (s.padCache).sourceAt = s.sourceAt := rfl
@[simp] theorem padCache_byteOffset (s : State) : (s.padCache).byteOffset = s.byteOffset := rfl
@[simp] theorem padCache_bitOffset (s : State) : (s.padCache).bitOffset = s.bitOffset := rfl
@[simp] theorem padCache_nextAnswer (s : State) : (s.padCache).nextAnswer = s.nextAnswer := rfl
@[simp] theorem padCache_answerAt (s : State) : (s.padCache).answerAt = s.answerAt := rfl

/-! ### clearUsed -/

@[simp] theorem clearUsed_wCache (s : State) : (s.clearUsed).wCache = s.wCache := rfl
@[simp] theorem clearUsed_wUsed (s : State) : (s.clearUsed).wUsed = 0 := rfl
@[simp] theorem clearUsed_wErr (s : State) : (s.clearUsed).wErr = s.wErr := rfl
@[simp] theorem clearUsed_rPos (s : State) : (s.clearUsed).rPos = s.rPos := rfl
@[simp] theorem clearUsed_bFatal (s : State) : (s.clearUsed).bFatal = s.bFatal := rfl
@[simp] theorem clearUsed_bFatalCause (s : State) : (s.clearUsed).bFatalCause = s.bFatalCause := rfl
@[simp] theorem clearUsed_platform (s : State) : (s.clearUsed).platform = s.platform := rfl
@[simp] theorem clearUsed_source (s : State) : (s.clearUsed).source = s.source := rfl
@[simp] theorem clearUsed_bus (s : State) : (s.clearUsed).bus = s.bus := rfl
@[simp] theorem clearUsed_sinkScript (s : State) : (s.clearUsed).sinkScript = s.sinkScript := rfl
@[simp] theorem clearUsed_draws (s : State) : (s.clearUsed).draws = s.draws := rfl
@[simp] theorem clearUsed_host (s : State) : (s.clearUsed).host = s.host := rfl
@[simp] theorem clearUsed_responses (s : State) : (s.clearUsed).responses = s.responses := rfl
@[simp] theorem clearUsed_accepted (s : State) : (s.clearUsed).accepted = s.accepted := rfl
@[simp] theorem clearUsed_closeAnswers (s : State) : (s.clearUsed).closeAnswers = s.closeAnswers := rfl
@[simp] theorem clearUsed_sourceAt (s : State) : (s.clearUsed).sourceAt = s.sourceAt := rfl
@[simp] theorem clearUsed_byteOffset (s : State) : (s.clearUsed).byteOffset = s.byteOffset := rfl
@[simp] theorem clearUsed_bitOffset (s : State) : (s.clearUsed).bitOffset = s.bitOffset := rfl
@[simp] theorem clearUsed_nextAnswer (s : State) : (s.clearUsed).nextAnswer = s.nextAnswer := rfl
@[simp] theorem clearUsed_answerAt (s : State) : (s.clearUsed).answerAt = s.answerAt := rfl

/-! ### setWriterErr -/

@[simp] theorem setWriterErr_wCache (s : State) : (s.setWriterErr).wCache = s.wCache := rfl
@[simp] theorem setWriterErr_wUsed (s : State) : (s.setWriterErr).wUsed = s.wUsed := rfl
@[simp] theorem setWriterErr_wErr (s : State) : (s.setWriterErr).wErr = true := rfl
@[simp] theorem setWriterErr_rPos (s : State) : (s.setWriterErr).rPos = s.rPos := rfl
@[simp] theorem setWriterErr_bFatal (s : State) : (s.setWriterErr).bFatal = s.bFatal := rfl
@[simp] theorem setWriterErr_bFatalCause (s : State) : (s.setWriterErr).bFatalCause = s.bFatalCause := rfl
@[simp] theorem setWriterErr_platform (s : State) : (s.setWriterErr).platform = s.platform := rfl
@[simp] theorem setWriterErr_source (s : State) : (s.setWriterErr).source = s.source := rfl
@[simp] theorem setWriterErr_bus (s : State) : (s.setWriterErr).bus = s.bus := rfl
@[simp] theorem setWriterErr_sinkScript (s : State) : (s.setWriterErr).sinkScript = s.sinkScript := rfl
@[simp] theorem setWriterErr_draws (s : State) : (s.setWriterErr).draws = s.draws := rfl
@[simp] theorem setWriterErr_host (s : State) : (s.setWriterErr).host = s.host := rfl
@[simp] theorem setWriterErr_responses (s : State) : (s.setWriterErr).responses = s.responses := rfl
@[simp] theorem setWriterErr_accepted (s : State) : (s.setWriterErr).accepted = s.accepted := rfl
@[simp] theorem setWriterErr_closeAnswers (s : State) : (s.setWriterErr).closeAnswers = s.closeAnswers := rfl
@[simp] theorem setWriterErr_sourceAt (s : State) : (s.setWriterErr).sourceAt = s.sourceAt := rfl
@[simp] theorem setWriterErr_byteOffset (s : State) : (s.setWriterErr).byteOffset = s.byteOffset := rfl
@[simp] theorem setWriterErr_bitOffset (s : State) : (s.setWriterErr).bitOffset = s.bitOffset := rfl
@[simp] theorem setWriterErr_nextAnswer (s : State) : (s.setWriterErr).nextAnswer = s.nextAnswer := rfl
@[simp] theorem setWriterErr_answerAt (s : State) : (s.setWriterErr).answerAt = s.answerAt := rfl

/-! ### setPos -/

@[simp] theorem setPos_wCache (p : Int) (s : State) : (s.setPos p).wCache = s.wCache := rfl
@[simp] theorem setPos_wUsed (p : Int) (s : State) : (s.setPos p).wUsed = s.wUsed := rfl
@[simp] theorem setPos_wErr (p : Int) (s : State) : (s.setPos p).wErr = s.wErr := rfl
@[simp] theorem setPos_rPos (p : Int) (s : State) : (s.setPos p).rPos = BitVec.ofInt 64 p := rfl
@[simp] theorem setPos_bFatal (p : Int) (s : State) : (s.setPos p).bFatal = s.bFatal := rfl
@[simp] theorem setPos_bFatalCause (p : Int) (s : State) : (s.setPos p).bFatalCause = s.bFatalCause := rfl
@[simp] theorem setPos_platform (p : Int) (s : State) : (s.setPos p).platform = s.platform := rfl
@[simp] theorem setPos_source (p : Int) (s : State) : (s.setPos p).source = s.source := rfl
@[simp] theorem setPos_bus (p : Int) (s : State) : (s.setPos p).bus = s.bus := rfl
@[simp] theorem setPos_sinkScript (p : Int) (s : State) : (s.setPos p).sinkScript = s.sinkScript := rfl
@[simp] theorem setPos_draws (p : Int) (s : State) : (s.setPos p).draws = s.draws := rfl
@[simp] theorem setPos_host (p : Int) (s : State) : (s.setPos p).host = s.host := rfl
@[simp] theorem setPos_responses (p : Int) (s : State) : (s.setPos p).responses = s.responses := rfl
@[simp] theorem setPos_accepted (p : Int) (s : State) : (s.setPos p).accepted = s.accepted := rfl
@[simp] theorem setPos_closeAnswers (p : Int) (s : State) : (s.setPos p).closeAnswers = s.closeAnswers := rfl
@[simp] theorem setPos_sourceAt (p : Int) (s : State) : (s.setPos p).sourceAt = s.sourceAt := rfl
@[simp] theorem setPos_nextAnswer (p : Int) (s : State) : (s.setPos p).nextAnswer = s.nextAnswer := rfl
@[simp] theorem setPos_answerAt (p : Int) (s : State) : (s.setPos p).answerAt = s.answerAt := rfl

/-! ### advance -/

@[simp] theorem advance_wCache (k : Nat) (s : State) : (s.advance k).wCache = s.wCache := rfl
@[simp] theorem advance_wUsed (k : Nat) (s : State) : (s.advance k).wUsed = s.wUsed := rfl
@[simp] theorem advance_wErr (k : Nat) (s : State) : (s.advance k).wErr = s.wErr := rfl
@[simp] theorem advance_rPos (k : Nat) (s : State) : (s.advance k).rPos = s.rPos + BitVec.ofNat 64 k := rfl
@[simp] theorem advance_bFatal (k : Nat) (s : State) : (s.advance k).bFatal = s.bFatal := rfl
@[simp] theorem advance_bFatalCause (k : Nat) (s : State) : (s.advance k).bFatalCause = s.bFatalCause := rfl
@[simp] theorem advance_platform (k : Nat) (s : State) : (s.advance k).platform = s.platform := rfl
@[simp] theorem advance_source (k : Nat) (s : State) : (s.advance k).source = s.source := rfl
@[simp] theorem advance_bus (k : Nat) (s : State) : (s.advance k).bus = s.bus := rfl
@[simp] theorem advance_sinkScript (k : Nat) (s : State) : (s.advance k).sinkScript = s.sinkScript := rfl
@[simp] theorem advance_draws (k : Nat) (s : State) : (s.advance k).draws = s.draws := rfl
@[simp] theorem advance_host (k : Nat) (s : State) : (s.advance k).host = s.host := rfl
@[simp] theorem advance_responses (k : Nat) (s : State) : (s.advance k).responses = s.responses := rfl
@[simp] theorem advance_accepted (k : Nat) (s : State) : (s.advance k).accepted = s.accepted := rfl
@[simp] theorem advance_closeAnswers (k : Nat) (s : State) : (s.advance k).closeAnswers = s.closeAnswers := rfl
@[simp] theorem advance_sourceAt (k : Nat) (s : State) : (s.advance k).sourceAt = s.sourceAt := rfl
@[simp] theorem advance_nextAnswer (k : Nat) (s : State) : (s.advance k).nextAnswer = s.nextAnswer := rfl
@[simp] theorem advance_answerAt (k : Nat) (s : State) : (s.advance k).answerAt = s.answerAt := rfl

/-! ### respond -/

@[simp] theorem respond_wCache (st : Status) (r : Data) (s : State) : (s.respond st r).wCache = s.wCache := rfl
@[simp] theorem respond_wUsed (st : Status) (r : Data) (s : State) : (s.respond st r).wUsed = s.wUsed := rfl
@[simp] theorem respond_wErr (st : Status) (r : Data) (s : State) : (s.respond st r).wErr = s.wErr := rfl
@[simp] theorem respond_rPos (st : Status) (r : Data) (s : State) : (s.respond st r).rPos = s.rPos := rfl
@[simp] theorem respond_bFatal (st : Status) (r : Data) (s : State) : (s.respond st r).bFatal = s.bFatal := rfl
@[simp] theorem respond_bFatalCause (st : Status) (r : Data) (s : State) : (s.respond st r).bFatalCause = s.bFatalCause := rfl
@[simp] theorem respond_platform (st : Status) (r : Data) (s : State) : (s.respond st r).platform = s.platform := rfl
@[simp] theorem respond_source (st : Status) (r : Data) (s : State) : (s.respond st r).source = s.source := rfl
@[simp] theorem respond_bus (st : Status) (r : Data) (s : State) : (s.respond st r).bus = s.bus := rfl
@[simp] theorem respond_sinkScript (st : Status) (r : Data) (s : State) : (s.respond st r).sinkScript = s.sinkScript := rfl
@[simp] theorem respond_draws (st : Status) (r : Data) (s : State) : (s.respond st r).draws = s.draws := rfl
@[simp] theorem respond_host (st : Status) (r : Data) (s : State) : (s.respond st r).host = s.host := rfl
@[simp] theorem respond_responses (st : Status) (r : Data) (s : State) : (s.respond st r).responses = s.responses ++ [some { status := st, result := r }] := rfl
@[simp] theorem respond_accepted (st : Status) (r : Data) (s : State) : (s.respond st r).accepted = s.accepted := rfl
@[simp] theorem respond_closeAnswers (st : Status) (r : Data) (s : State) : (s.respond st r).closeAnswers = s.closeAnswers := rfl
@[simp] theorem respond_sourceAt (st : Status) (r : Data) (s : State) : (s.respond st r).sourceAt = s.sourceAt := rfl
@[simp] theorem respond_byteOffset (st : Status) (r : Data) (s : State) : (s.respond st r).byteOffset = s.byteOffset := rfl
@[simp] theorem respond_bitOffset (st : Status) (r : Data) (s : State) : (s.respond st r).bitOffset = s.bitOffset := rfl
@[simp] theorem respond_nextAnswer (st : Status) (r : Data) (s : State) : (s.respond st r).nextAnswer = s.nextAnswer := rfl
@[simp] theorem respond_answerAt (st : Status) (r : Data) (s : State) : (s.respond st r).answerAt = s.answerAt := rfl

/-! ### raiseFatal -/

@[simp] theorem raiseFatal_wCache (c : FatalCause) (s : State) : (s.raiseFatal c).wCache = s.wCache := rfl
@[simp] theorem raiseFatal_wUsed (c : FatalCause) (s : State) : (s.raiseFatal c).wUsed = s.wUsed := rfl
@[simp] theorem raiseFatal_wErr (c : FatalCause) (s : State) : (s.raiseFatal c).wErr = s.wErr := rfl
@[simp] theorem raiseFatal_rPos (c : FatalCause) (s : State) : (s.raiseFatal c).rPos = s.rPos := rfl
@[simp] theorem raiseFatal_bFatal (c : FatalCause) (s : State) : (s.raiseFatal c).bFatal = true := rfl
@[simp] theorem raiseFatal_bFatalCause (c : FatalCause) (s : State) : (s.raiseFatal c).bFatalCause = causeCode c := rfl
@[simp] theorem raiseFatal_platform (c : FatalCause) (s : State) : (s.raiseFatal c).platform = s.platform := rfl
@[simp] theorem raiseFatal_source (c : FatalCause) (s : State) : (s.raiseFatal c).source = s.source := rfl
@[simp] theorem raiseFatal_bus (c : FatalCause) (s : State) : (s.raiseFatal c).bus = s.bus := rfl
@[simp] theorem raiseFatal_sinkScript (c : FatalCause) (s : State) : (s.raiseFatal c).sinkScript = s.sinkScript := rfl
@[simp] theorem raiseFatal_draws (c : FatalCause) (s : State) : (s.raiseFatal c).draws = s.draws := rfl
@[simp] theorem raiseFatal_host (c : FatalCause) (s : State) : (s.raiseFatal c).host = s.host := rfl
@[simp] theorem raiseFatal_responses (c : FatalCause) (s : State) : (s.raiseFatal c).responses = s.responses ++ [none] := rfl
@[simp] theorem raiseFatal_accepted (c : FatalCause) (s : State) : (s.raiseFatal c).accepted = s.accepted := rfl
@[simp] theorem raiseFatal_closeAnswers (c : FatalCause) (s : State) : (s.raiseFatal c).closeAnswers = s.closeAnswers := rfl
@[simp] theorem raiseFatal_sourceAt (c : FatalCause) (s : State) : (s.raiseFatal c).sourceAt = s.sourceAt := rfl
@[simp] theorem raiseFatal_byteOffset (c : FatalCause) (s : State) : (s.raiseFatal c).byteOffset = s.byteOffset := rfl
@[simp] theorem raiseFatal_bitOffset (c : FatalCause) (s : State) : (s.raiseFatal c).bitOffset = s.bitOffset := rfl
@[simp] theorem raiseFatal_nextAnswer (c : FatalCause) (s : State) : (s.raiseFatal c).nextAnswer = s.nextAnswer := rfl
@[simp] theorem raiseFatal_answerAt (c : FatalCause) (s : State) : (s.raiseFatal c).answerAt = s.answerAt := rfl

/-! ### writerReset -/

@[simp] theorem writerReset_wCache (s : State) : (s.writerReset).wCache = Config.freeCache s.draws := rfl
@[simp] theorem writerReset_wUsed (s : State) : (s.writerReset).wUsed = 0 := rfl
@[simp] theorem writerReset_wErr (s : State) : (s.writerReset).wErr = false := rfl
@[simp] theorem writerReset_rPos (s : State) : (s.writerReset).rPos = s.rPos := rfl
@[simp] theorem writerReset_bFatal (s : State) : (s.writerReset).bFatal = s.bFatal := rfl
@[simp] theorem writerReset_bFatalCause (s : State) : (s.writerReset).bFatalCause = s.bFatalCause := rfl
@[simp] theorem writerReset_platform (s : State) : (s.writerReset).platform = s.platform := rfl
@[simp] theorem writerReset_source (s : State) : (s.writerReset).source = s.source := rfl
@[simp] theorem writerReset_bus (s : State) : (s.writerReset).bus = s.bus := rfl
@[simp] theorem writerReset_sinkScript (s : State) : (s.writerReset).sinkScript = s.sinkScript := rfl
@[simp] theorem writerReset_draws (s : State) : (s.writerReset).draws = s.draws + 1 := rfl
@[simp] theorem writerReset_host (s : State) : (s.writerReset).host = s.host := rfl
@[simp] theorem writerReset_responses (s : State) : (s.writerReset).responses = s.responses := rfl
@[simp] theorem writerReset_accepted (s : State) : (s.writerReset).accepted = s.accepted := rfl
@[simp] theorem writerReset_closeAnswers (s : State) : (s.writerReset).closeAnswers = s.closeAnswers := rfl
@[simp] theorem writerReset_sourceAt (s : State) : (s.writerReset).sourceAt = s.sourceAt := rfl
@[simp] theorem writerReset_byteOffset (s : State) : (s.writerReset).byteOffset = s.byteOffset := rfl
@[simp] theorem writerReset_bitOffset (s : State) : (s.writerReset).bitOffset = s.bitOffset := rfl

/-! ### readerReset -/

@[simp] theorem readerReset_wCache (s : State) : (s.readerReset).wCache = s.wCache := rfl
@[simp] theorem readerReset_wUsed (s : State) : (s.readerReset).wUsed = s.wUsed := rfl
@[simp] theorem readerReset_wErr (s : State) : (s.readerReset).wErr = s.wErr := rfl
@[simp] theorem readerReset_rPos (s : State) : (s.readerReset).rPos = 0 := rfl
@[simp] theorem readerReset_bFatal (s : State) : (s.readerReset).bFatal = s.bFatal := rfl
@[simp] theorem readerReset_bFatalCause (s : State) : (s.readerReset).bFatalCause = s.bFatalCause := rfl
@[simp] theorem readerReset_platform (s : State) : (s.readerReset).platform = s.platform := rfl
@[simp] theorem readerReset_source (s : State) : (s.readerReset).source = s.source := rfl
@[simp] theorem readerReset_bus (s : State) : (s.readerReset).bus = s.bus := rfl
@[simp] theorem readerReset_sinkScript (s : State) : (s.readerReset).sinkScript = s.sinkScript := rfl
@[simp] theorem readerReset_draws (s : State) : (s.readerReset).draws = s.draws := rfl
@[simp] theorem readerReset_host (s : State) : (s.readerReset).host = s.host := rfl
@[simp] theorem readerReset_responses (s : State) : (s.readerReset).responses = s.responses := rfl
@[simp] theorem readerReset_accepted (s : State) : (s.readerReset).accepted = s.accepted := rfl
@[simp] theorem readerReset_closeAnswers (s : State) : (s.readerReset).closeAnswers = s.closeAnswers := rfl
@[simp] theorem readerReset_sourceAt (s : State) : (s.readerReset).sourceAt = s.sourceAt := rfl
@[simp] theorem readerReset_nextAnswer (s : State) : (s.readerReset).nextAnswer = s.nextAnswer := rfl
@[simp] theorem readerReset_answerAt (s : State) : (s.readerReset).answerAt = s.answerAt := rfl

/-! ### blockReset -/

@[simp] theorem blockReset_wCache (s : State) : (s.blockReset).wCache = Config.freeCache s.draws := rfl
@[simp] theorem blockReset_wUsed (s : State) : (s.blockReset).wUsed = 0 := rfl
@[simp] theorem blockReset_wErr (s : State) : (s.blockReset).wErr = false := rfl
@[simp] theorem blockReset_rPos (s : State) : (s.blockReset).rPos = 0 := rfl
@[simp] theorem blockReset_bFatal (s : State) : (s.blockReset).bFatal = false := rfl
@[simp] theorem blockReset_bFatalCause (s : State) : (s.blockReset).bFatalCause = 0 := rfl
@[simp] theorem blockReset_platform (s : State) : (s.blockReset).platform = s.platform := rfl
@[simp] theorem blockReset_source (s : State) : (s.blockReset).source = s.source := rfl
@[simp] theorem blockReset_bus (s : State) : (s.blockReset).bus = s.bus := rfl
@[simp] theorem blockReset_sinkScript (s : State) : (s.blockReset).sinkScript = s.sinkScript := rfl
@[simp] theorem blockReset_draws (s : State) : (s.blockReset).draws = s.draws + 1 := rfl
@[simp] theorem blockReset_host (s : State) : (s.blockReset).host = s.host := rfl
@[simp] theorem blockReset_responses (s : State) : (s.blockReset).responses = s.responses := rfl
@[simp] theorem blockReset_accepted (s : State) : (s.blockReset).accepted = s.accepted := rfl
@[simp] theorem blockReset_closeAnswers (s : State) : (s.blockReset).closeAnswers = s.closeAnswers := rfl
@[simp] theorem blockReset_sourceAt (s : State) : (s.blockReset).sourceAt = s.sourceAt := rfl

/-! ### withHost -/

@[simp] theorem withHost_wCache (h : List HostEvent) (s : State) : (s.withHost h).wCache = s.wCache := rfl
@[simp] theorem withHost_wUsed (h : List HostEvent) (s : State) : (s.withHost h).wUsed = s.wUsed := rfl
@[simp] theorem withHost_wErr (h : List HostEvent) (s : State) : (s.withHost h).wErr = s.wErr := rfl
@[simp] theorem withHost_rPos (h : List HostEvent) (s : State) : (s.withHost h).rPos = s.rPos := rfl
@[simp] theorem withHost_bFatal (h : List HostEvent) (s : State) : (s.withHost h).bFatal = s.bFatal := rfl
@[simp] theorem withHost_bFatalCause (h : List HostEvent) (s : State) : (s.withHost h).bFatalCause = s.bFatalCause := rfl
@[simp] theorem withHost_platform (h : List HostEvent) (s : State) : (s.withHost h).platform = s.platform := rfl
@[simp] theorem withHost_source (h : List HostEvent) (s : State) : (s.withHost h).source = s.source := rfl
@[simp] theorem withHost_bus (h : List HostEvent) (s : State) : (s.withHost h).bus = s.bus := rfl
@[simp] theorem withHost_sinkScript (h : List HostEvent) (s : State) : (s.withHost h).sinkScript = s.sinkScript := rfl
@[simp] theorem withHost_draws (h : List HostEvent) (s : State) : (s.withHost h).draws = s.draws := rfl
@[simp] theorem withHost_host (h : List HostEvent) (s : State) : (s.withHost h).host = h := rfl
@[simp] theorem withHost_responses (h : List HostEvent) (s : State) : (s.withHost h).responses = s.responses := rfl
@[simp] theorem withHost_accepted (h : List HostEvent) (s : State) : (s.withHost h).accepted = s.accepted := rfl
@[simp] theorem withHost_closeAnswers (h : List HostEvent) (s : State) : (s.withHost h).closeAnswers = s.closeAnswers := rfl
@[simp] theorem withHost_sourceAt (h : List HostEvent) (s : State) : (s.withHost h).sourceAt = s.sourceAt := rfl
@[simp] theorem withHost_byteOffset (h : List HostEvent) (s : State) : (s.withHost h).byteOffset = s.byteOffset := rfl
@[simp] theorem withHost_bitOffset (h : List HostEvent) (s : State) : (s.withHost h).bitOffset = s.bitOffset := rfl
@[simp] theorem withHost_nextAnswer (h : List HostEvent) (s : State) : (s.withHost h).nextAnswer = s.nextAnswer := rfl
@[simp] theorem withHost_answerAt (h : List HostEvent) (s : State) : (s.withHost h).answerAt = s.answerAt := rfl

/-! ### bind -/

@[simp] theorem bind_wCache (p : Platform) (m : Memory) (s : State) : (s.bind p m).wCache = s.wCache := rfl
@[simp] theorem bind_wUsed (p : Platform) (m : Memory) (s : State) : (s.bind p m).wUsed = s.wUsed := rfl
@[simp] theorem bind_wErr (p : Platform) (m : Memory) (s : State) : (s.bind p m).wErr = s.wErr := rfl
@[simp] theorem bind_rPos (p : Platform) (m : Memory) (s : State) : (s.bind p m).rPos = s.rPos := rfl
@[simp] theorem bind_bFatal (p : Platform) (m : Memory) (s : State) : (s.bind p m).bFatal = s.bFatal := rfl
@[simp] theorem bind_bFatalCause (p : Platform) (m : Memory) (s : State) : (s.bind p m).bFatalCause = s.bFatalCause := rfl
@[simp] theorem bind_platform (p : Platform) (m : Memory) (s : State) : (s.bind p m).platform = p := rfl
@[simp] theorem bind_source (p : Platform) (m : Memory) (s : State) : (s.bind p m).source = m := rfl
@[simp] theorem bind_bus (p : Platform) (m : Memory) (s : State) : (s.bind p m).bus = s.bus := rfl
@[simp] theorem bind_sinkScript (p : Platform) (m : Memory) (s : State) : (s.bind p m).sinkScript = s.sinkScript := rfl
@[simp] theorem bind_draws (p : Platform) (m : Memory) (s : State) : (s.bind p m).draws = s.draws := rfl
@[simp] theorem bind_host (p : Platform) (m : Memory) (s : State) : (s.bind p m).host = s.host := rfl
@[simp] theorem bind_responses (p : Platform) (m : Memory) (s : State) : (s.bind p m).responses = s.responses := rfl
@[simp] theorem bind_accepted (p : Platform) (m : Memory) (s : State) : (s.bind p m).accepted = s.accepted := rfl
@[simp] theorem bind_closeAnswers (p : Platform) (m : Memory) (s : State) : (s.bind p m).closeAnswers = s.closeAnswers := rfl
@[simp] theorem bind_byteOffset (p : Platform) (m : Memory) (s : State) : (s.bind p m).byteOffset = s.byteOffset := rfl
@[simp] theorem bind_bitOffset (p : Platform) (m : Memory) (s : State) : (s.bind p m).bitOffset = s.bitOffset := rfl
@[simp] theorem bind_nextAnswer (p : Platform) (m : Memory) (s : State) : (s.bind p m).nextAnswer = s.nextAnswer := rfl
@[simp] theorem bind_answerAt (p : Platform) (m : Memory) (s : State) : (s.bind p m).answerAt = s.answerAt := rfl

/-! ### afterReads -/

@[simp] theorem afterReads_wCache (k : Nat) (l : List Nat) (s : State) : (s.afterReads k l).wCache = s.wCache := rfl
@[simp] theorem afterReads_wUsed (k : Nat) (l : List Nat) (s : State) : (s.afterReads k l).wUsed = s.wUsed := rfl
@[simp] theorem afterReads_wErr (k : Nat) (l : List Nat) (s : State) : (s.afterReads k l).wErr = s.wErr := rfl
@[simp] theorem afterReads_rPos (k : Nat) (l : List Nat) (s : State) : (s.afterReads k l).rPos = s.rPos + BitVec.ofNat 64 k := rfl
@[simp] theorem afterReads_bFatal (k : Nat) (l : List Nat) (s : State) : (s.afterReads k l).bFatal = s.bFatal := rfl
@[simp] theorem afterReads_bFatalCause (k : Nat) (l : List Nat) (s : State) : (s.afterReads k l).bFatalCause = s.bFatalCause := rfl
@[simp] theorem afterReads_platform (k : Nat) (l : List Nat) (s : State) : (s.afterReads k l).platform = s.platform := rfl
@[simp] theorem afterReads_source (k : Nat) (l : List Nat) (s : State) : (s.afterReads k l).source = s.source := rfl
@[simp] theorem afterReads_bus (k : Nat) (l : List Nat) (s : State) : (s.afterReads k l).bus = s.bus ++ readsOf s l := rfl
@[simp] theorem afterReads_sinkScript (k : Nat) (l : List Nat) (s : State) : (s.afterReads k l).sinkScript = s.sinkScript := rfl
@[simp] theorem afterReads_draws (k : Nat) (l : List Nat) (s : State) : (s.afterReads k l).draws = s.draws := rfl
@[simp] theorem afterReads_host (k : Nat) (l : List Nat) (s : State) : (s.afterReads k l).host = s.host := rfl
@[simp] theorem afterReads_responses (k : Nat) (l : List Nat) (s : State) : (s.afterReads k l).responses = s.responses := rfl
@[simp] theorem afterReads_nextAnswer (k : Nat) (l : List Nat) (s : State) : (s.afterReads k l).nextAnswer = s.nextAnswer := rfl
@[simp] theorem afterReads_answerAt (k : Nat) (l : List Nat) (s : State) : (s.afterReads k l).answerAt = s.answerAt := rfl

/-! ### afterWrites -/

@[simp] theorem afterWrites_wCache (l : List Byte) (s : State) : (s.afterWrites l).wCache = s.wCache := rfl
@[simp] theorem afterWrites_wUsed (l : List Byte) (s : State) : (s.afterWrites l).wUsed = s.wUsed := rfl
@[simp] theorem afterWrites_wErr (l : List Byte) (s : State) : (s.afterWrites l).wErr = s.wErr := rfl
@[simp] theorem afterWrites_rPos (l : List Byte) (s : State) : (s.afterWrites l).rPos = s.rPos := rfl
@[simp] theorem afterWrites_bFatal (l : List Byte) (s : State) : (s.afterWrites l).bFatal = s.bFatal := rfl
@[simp] theorem afterWrites_bFatalCause (l : List Byte) (s : State) : (s.afterWrites l).bFatalCause = s.bFatalCause := rfl
@[simp] theorem afterWrites_platform (l : List Byte) (s : State) : (s.afterWrites l).platform = s.platform := rfl
@[simp] theorem afterWrites_source (l : List Byte) (s : State) : (s.afterWrites l).source = s.source := rfl
@[simp] theorem afterWrites_bus (l : List Byte) (s : State) : (s.afterWrites l).bus = s.bus ++ writesOf l := rfl
@[simp] theorem afterWrites_sinkScript (l : List Byte) (s : State) : (s.afterWrites l).sinkScript = s.sinkScript.drop l.length := rfl
@[simp] theorem afterWrites_draws (l : List Byte) (s : State) : (s.afterWrites l).draws = s.draws + (l.length - s.sinkScript.length) := rfl
@[simp] theorem afterWrites_host (l : List Byte) (s : State) : (s.afterWrites l).host = s.host := rfl
@[simp] theorem afterWrites_responses (l : List Byte) (s : State) : (s.afterWrites l).responses = s.responses := rfl
@[simp] theorem afterWrites_byteOffset (l : List Byte) (s : State) : (s.afterWrites l).byteOffset = s.byteOffset := rfl
@[simp] theorem afterWrites_bitOffset (l : List Byte) (s : State) : (s.afterWrites l).bitOffset = s.bitOffset := rfl

/-! ### withCache -/

@[simp] theorem withCache_wCache (c : Byte) (u : BitVec 4) (s : State) : (s.withCache c u).wCache = c := rfl
@[simp] theorem withCache_wUsed (c : Byte) (u : BitVec 4) (s : State) : (s.withCache c u).wUsed = u := rfl
@[simp] theorem withCache_wErr (c : Byte) (u : BitVec 4) (s : State) : (s.withCache c u).wErr = s.wErr := rfl
@[simp] theorem withCache_rPos (c : Byte) (u : BitVec 4) (s : State) : (s.withCache c u).rPos = s.rPos := rfl
@[simp] theorem withCache_bFatal (c : Byte) (u : BitVec 4) (s : State) : (s.withCache c u).bFatal = s.bFatal := rfl
@[simp] theorem withCache_bFatalCause (c : Byte) (u : BitVec 4) (s : State) : (s.withCache c u).bFatalCause = s.bFatalCause := rfl
@[simp] theorem withCache_platform (c : Byte) (u : BitVec 4) (s : State) : (s.withCache c u).platform = s.platform := rfl
@[simp] theorem withCache_source (c : Byte) (u : BitVec 4) (s : State) : (s.withCache c u).source = s.source := rfl
@[simp] theorem withCache_bus (c : Byte) (u : BitVec 4) (s : State) : (s.withCache c u).bus = s.bus := rfl
@[simp] theorem withCache_sinkScript (c : Byte) (u : BitVec 4) (s : State) : (s.withCache c u).sinkScript = s.sinkScript := rfl
@[simp] theorem withCache_draws (c : Byte) (u : BitVec 4) (s : State) : (s.withCache c u).draws = s.draws := rfl
@[simp] theorem withCache_host (c : Byte) (u : BitVec 4) (s : State) : (s.withCache c u).host = s.host := rfl
@[simp] theorem withCache_responses (c : Byte) (u : BitVec 4) (s : State) : (s.withCache c u).responses = s.responses := rfl
@[simp] theorem withCache_accepted (c : Byte) (u : BitVec 4) (s : State) : (s.withCache c u).accepted = s.accepted := rfl
@[simp] theorem withCache_closeAnswers (c : Byte) (u : BitVec 4) (s : State) : (s.withCache c u).closeAnswers = s.closeAnswers := rfl
@[simp] theorem withCache_sourceAt (c : Byte) (u : BitVec 4) (s : State) : (s.withCache c u).sourceAt = s.sourceAt := rfl
@[simp] theorem withCache_byteOffset (c : Byte) (u : BitVec 4) (s : State) : (s.withCache c u).byteOffset = s.byteOffset := rfl
@[simp] theorem withCache_bitOffset (c : Byte) (u : BitVec 4) (s : State) : (s.withCache c u).bitOffset = s.bitOffset := rfl
@[simp] theorem withCache_nextAnswer (c : Byte) (u : BitVec 4) (s : State) : (s.withCache c u).nextAnswer = s.nextAnswer := rfl
@[simp] theorem withCache_answerAt (c : Byte) (u : BitVec 4) (s : State) : (s.withCache c u).answerAt = s.answerAt := rfl

/-! ### afterFailedWrite -/

@[simp] theorem afterFailedWrite_wCache (b : Byte) (s : State) : (s.afterFailedWrite b).wCache = s.wCache := rfl
@[simp] theorem afterFailedWrite_wUsed (b : Byte) (s : State) : (s.afterFailedWrite b).wUsed = s.wUsed := rfl
@[simp] theorem afterFailedWrite_wErr (b : Byte) (s : State) : (s.afterFailedWrite b).wErr = true := rfl
@[simp] theorem afterFailedWrite_rPos (b : Byte) (s : State) : (s.afterFailedWrite b).rPos = s.rPos := rfl
@[simp] theorem afterFailedWrite_bFatal (b : Byte) (s : State) : (s.afterFailedWrite b).bFatal = s.bFatal := rfl
@[simp] theorem afterFailedWrite_bFatalCause (b : Byte) (s : State) : (s.afterFailedWrite b).bFatalCause = s.bFatalCause := rfl
@[simp] theorem afterFailedWrite_platform (b : Byte) (s : State) : (s.afterFailedWrite b).platform = s.platform := rfl
@[simp] theorem afterFailedWrite_source (b : Byte) (s : State) : (s.afterFailedWrite b).source = s.source := rfl
@[simp] theorem afterFailedWrite_bus (b : Byte) (s : State) : (s.afterFailedWrite b).bus = s.bus ++ [.sinkWrite b .err] := rfl
@[simp] theorem afterFailedWrite_sinkScript (b : Byte) (s : State) : (s.afterFailedWrite b).sinkScript = s.sinkScript.drop 1 := rfl
@[simp] theorem afterFailedWrite_draws (b : Byte) (s : State) : (s.afterFailedWrite b).draws = s.draws + (1 - s.sinkScript.length) := rfl
@[simp] theorem afterFailedWrite_host (b : Byte) (s : State) : (s.afterFailedWrite b).host = s.host := rfl
@[simp] theorem afterFailedWrite_responses (b : Byte) (s : State) : (s.afterFailedWrite b).responses = s.responses := rfl
@[simp] theorem afterFailedWrite_byteOffset (b : Byte) (s : State) : (s.afterFailedWrite b).byteOffset = s.byteOffset := rfl
@[simp] theorem afterFailedWrite_bitOffset (b : Byte) (s : State) : (s.afterFailedWrite b).bitOffset = s.bitOffset := rfl

/-! ### answersDrawn -/

@[simp] theorem answersDrawn_wCache (k : Nat) (s : State) : (s.answersDrawn k).wCache = s.wCache := rfl
@[simp] theorem answersDrawn_wUsed (k : Nat) (s : State) : (s.answersDrawn k).wUsed = s.wUsed := rfl
@[simp] theorem answersDrawn_wErr (k : Nat) (s : State) : (s.answersDrawn k).wErr = s.wErr := rfl
@[simp] theorem answersDrawn_rPos (k : Nat) (s : State) : (s.answersDrawn k).rPos = s.rPos := rfl
@[simp] theorem answersDrawn_bFatal (k : Nat) (s : State) : (s.answersDrawn k).bFatal = s.bFatal := rfl
@[simp] theorem answersDrawn_bFatalCause (k : Nat) (s : State) : (s.answersDrawn k).bFatalCause = s.bFatalCause := rfl
@[simp] theorem answersDrawn_platform (k : Nat) (s : State) : (s.answersDrawn k).platform = s.platform := rfl
@[simp] theorem answersDrawn_source (k : Nat) (s : State) : (s.answersDrawn k).source = s.source := rfl
@[simp] theorem answersDrawn_bus (k : Nat) (s : State) : (s.answersDrawn k).bus = s.bus := rfl
@[simp] theorem answersDrawn_sinkScript (k : Nat) (s : State) : (s.answersDrawn k).sinkScript = s.sinkScript.drop k := rfl
@[simp] theorem answersDrawn_draws (k : Nat) (s : State) : (s.answersDrawn k).draws = s.draws + (k - s.sinkScript.length) := rfl
@[simp] theorem answersDrawn_host (k : Nat) (s : State) : (s.answersDrawn k).host = s.host := rfl
@[simp] theorem answersDrawn_responses (k : Nat) (s : State) : (s.answersDrawn k).responses = s.responses := rfl
@[simp] theorem answersDrawn_accepted (k : Nat) (s : State) : (s.answersDrawn k).accepted = s.accepted := rfl
@[simp] theorem answersDrawn_closeAnswers (k : Nat) (s : State) : (s.answersDrawn k).closeAnswers = s.closeAnswers := rfl
@[simp] theorem answersDrawn_sourceAt (k : Nat) (s : State) : (s.answersDrawn k).sourceAt = s.sourceAt := rfl
@[simp] theorem answersDrawn_byteOffset (k : Nat) (s : State) : (s.answersDrawn k).byteOffset = s.byteOffset := rfl
@[simp] theorem answersDrawn_bitOffset (k : Nat) (s : State) : (s.answersDrawn k).bitOffset = s.bitOffset := rfl

end Sys2Proof.Machine
end

