-- ==== Sys2Proof/Laws/Sink.lean ====
section
/-! SUPPORT. The sink's answers, one transaction with the sink, one with the source, and the views of the transactions. -/

namespace Sys2Proof.Machine

/-! ### Answers -/

theorem answerDrawn_eq (s : State) : s.answerDrawn = s.answersDrawn 1 := by
  obtain ⟨c, u, e, p, f, fc, pl, src, bus, script, d, h, r⟩ := s
  cases script <;> simp [State.answerDrawn, State.answersDrawn]

theorem nextAnswer_eq (s : State) : s.nextAnswer = s.answerAt 0 := by
  obtain ⟨c, u, e, p, f, fc, pl, src, bus, script, d, h, r⟩ := s
  cases script <;> simp [State.nextAnswer, State.answerAt]

theorem answersDrawn_zero (s : State) : s.answersDrawn 0 = s := by
  simp [State.answersDrawn]

theorem answersDrawn_add (j k : Nat) (s : State) :
    (s.answersDrawn j).answersDrawn k = s.answersDrawn (j + k) := by
  simp only [State.answersDrawn, List.drop_drop, List.length_drop, State.mk.injEq, true_and, and_true]
  omega

theorem answerAt_answersDrawn (j k : Nat) (s : State) :
    (s.answersDrawn j).answerAt k = s.answerAt (j + k) := by
  unfold State.answerAt
  rw [answersDrawn_sinkScript, List.getElem?_drop]
  cases h : s.sinkScript[j + k]? with
  | some a => rfl
  | none =>
    have hlen : s.sinkScript.length ≤ j + k := by simpa using h
    simp only [answersDrawn_draws, List.length_drop]
    congr 1
    omega

/-! ### Transactions with the sink -/

/-- Everything a sink write does: the next answer is drawn, and the write recorded with it. -/
theorem sinkWrite_eq (v : Byte) (s : State) :
    sinkWrite v s = (s.answerAt 0, (s.answersDrawn 1).record (.sinkWrite v (s.answerAt 0))) := by
  simp [sinkWrite, nextAnswer_eq, answerDrawn_eq]

/-- Everything a sink close does. -/
theorem sinkClose_eq (s : State) :
    sinkClose s = (s.answerAt 0, (s.answersDrawn 1).record (.sinkClose (s.answerAt 0))) := by
  simp [sinkClose, nextAnswer_eq, answerDrawn_eq]

/-- An emission that is accepted. -/
theorem emitCache_ok {s : State} (h : s.answerAt 0 = .ok) :
    emitCache s = (.ok, (s.answersDrawn 1).record (.sinkWrite s.wCache .ok)) := by
  simp [emitCache, sinkWrite_eq, h]

/-- An emission that fails: the writer is poisoned and keeps its registers. -/
theorem emitCache_err {s : State} (h : s.answerAt 0 = .err) :
    emitCache s =
      (.err, ((s.answersDrawn 1).record (.sinkWrite s.wCache .err)).setWriterErr) := by
  simp [emitCache, sinkWrite_eq, h]

/-- The two outcomes of an emission. -/
theorem emitCache_cases (s : State) :
    (s.answerAt 0 = .ok ∧ emitCache s = (.ok, (s.answersDrawn 1).record (.sinkWrite s.wCache .ok))) ∨
    (s.answerAt 0 = .err ∧ emitCache s =
      (.err, ((s.answersDrawn 1).record (.sinkWrite s.wCache .err)).setWriterErr)) := by
  cases h : s.answerAt 0 with
  | ok => exact .inl ⟨rfl, emitCache_ok h⟩
  | err => exact .inr ⟨rfl, emitCache_err h⟩

/-! ### Views of the transactions -/

theorem record_accepted (t : Transaction) (s : State) :
    (s.record t).accepted = s.accepted ++ (acceptedByte t).toList := by
  cases h : acceptedByte t <;> simp [State.accepted, h]

theorem record_closeAnswers (t : Transaction) (s : State) :
    (s.record t).closeAnswers = s.closeAnswers ++ (closeAnswer t).toList := by
  cases h : closeAnswer t <;> simp [State.closeAnswers, h]

theorem accepted_congr {s t : State} (h : s.bus = t.bus) : s.accepted = t.accepted := by
  simp [State.accepted, h]

theorem sourceAt_congr {s t : State} (hp : s.platform = t.platform) (hs : s.source = t.source)
    (ha : s.accepted = t.accepted) : s.sourceAt = t.sourceAt := by
  funext a
  simp [State.sourceAt, hp, hs, ha]

/-- A source read changes nothing of the source (R48). -/
theorem record_memRead_sourceAt (a : Nat) (b : Option Byte) (s : State) :
    (s.record (.memRead a b)).sourceAt = s.sourceAt :=
  sourceAt_congr rfl rfl (by simp [record_accepted, acceptedByte])

theorem acceptedByte_writesOf (bs : List Byte) : (writesOf bs).filterMap acceptedByte = bs := by
  induction bs with
  | nil => rfl
  | cons b rest ih => simp_all [writesOf, acceptedByte]

theorem acceptedByte_readsOf (s : State) (addrs : List Nat) :
    (readsOf s addrs).filterMap acceptedByte = [] := by
  simp [readsOf, acceptedByte, List.filterMap_eq_nil_iff]

/-- What the source answers, once it is a byte, does not change when the sink accepts more bytes (R55). -/
theorem sourceAt_mono {s t : State} (hp : t.platform = s.platform) (hs : t.source = s.source)
    (ha : s.accepted <+: t.accepted) {a : Nat} {b : Byte} (h : s.sourceAt a = some b) :
    t.sourceAt a = some b := by
  unfold State.sourceAt at h ⊢
  rw [hp, hs]
  split at h
  · rename_i hlt
    rw [if_pos hlt]
    split at h
    · rename_i hl
      rw [if_pos hl]
      obtain ⟨rest, hrest⟩ := ha
      rw [← hrest]
      rw [List.getElem?_append_left (List.getElem?_eq_some_iff.mp h).1]
      exact h
    · rename_i hl
      rw [if_neg hl]
      exact h
  · cases h

end Sys2Proof.Machine
end

