-- ==== Sys2Proof/Laws/Source.lean ====
section
/-! SUPPORT. Fields of the source: R103's sum, the shifts and masks that compute it, and everything READBITS's reads do. -/

namespace Sys2Proof.Machine

/-! ### R103's sum -/

theorem fieldAt_zero (src : Nat → Option Byte) (p : Nat) : fieldAt src p 0 = 0 := rfl

theorem fieldAt_succ (src : Nat → Option Byte) (p n : Nat) :
    fieldAt src p (n + 1) = 2 * fieldAt src p n + streamBit src (p + n) := by
  unfold fieldAt
  rw [List.range_succ, List.map_append, List.sum_append, ← List.sum_map_mul_left]
  have : ∀ i ∈ List.range n,
      streamBit src (p + i) * 2 ^ (n + 1 - 1 - i) = 2 * (streamBit src (p + i) * 2 ^ (n - 1 - i)) := by
    intro i hi
    have hi : i < n := by simpa using hi
    have : n + 1 - 1 - i = (n - 1 - i) + 1 := by omega
    rw [this, pow_succ]
    ring
  rw [List.map_congr_left this]
  simp

theorem streamBit_le_one (src : Nat → Option Byte) (p : Nat) : streamBit src p ≤ 1 := by
  unfold streamBit
  split
  · exact Bool.toNat_le _
  · omega

theorem fieldAt_lt (src : Nat → Option Byte) (p n : Nat) : fieldAt src p n < 2 ^ n := by
  induction n with
  | zero => simp [fieldAt_zero]
  | succ n ih =>
    have := streamBit_le_one src (p + n)
    rw [fieldAt_succ, pow_succ]
    omega

theorem fieldAt_add (src : Nat → Option Byte) (p n m : Nat) :
    fieldAt src p (n + m) = fieldAt src p n * 2 ^ m + fieldAt src (p + n) m := by
  induction m with
  | zero => simp [fieldAt_zero]
  | succ m ih =>
    rw [← Nat.add_assoc, fieldAt_succ, ih, fieldAt_succ, pow_succ, Nat.add_assoc p n m]
    ring

/-- A field within one byte is the byte's bits there. -/
theorem fieldAt_within {src : Nat → Option Byte} {p n : Nat} {b : Byte}
    (hb : src (p / 8) = some b) (hn : p % 8 + n ≤ 8) :
    fieldAt src p n = b.toNat / 2 ^ (8 - p % 8 - n) % 2 ^ n := by
  induction n with
  | zero => simp [fieldAt_zero, Nat.mod_one]
  | succ n ih =>
    have hdiv : (p + n) / 8 = p / 8 := by omega
    have hmod : (p + n) % 8 = p % 8 + n := by omega
    have hbit : streamBit src (p + n) = b.toNat / 2 ^ (8 - p % 8 - (n + 1)) % 2 := by
      unfold streamBit
      rw [hdiv, hb, hmod]
      simp only [BitVec.getLsbD, Nat.testBit_eq_decide_div_mod_eq]
      have : 7 - (p % 8 + n) = 8 - p % 8 - (n + 1) := by omega
      rw [this]
      rcases Nat.mod_two_eq_zero_or_one (b.toNat / 2 ^ (8 - p % 8 - (n + 1))) with h | h <;> simp [h]
    have hhalf : b.toNat / 2 ^ (8 - p % 8 - n) = b.toNat / 2 ^ (8 - p % 8 - (n + 1)) / 2 := by
      rw [Nat.div_div_eq_div_mul, ← pow_succ]
      congr 2
      omega
    rw [fieldAt_succ, ih (by omega), hbit, hhalf, pow_succ, Nat.mul_comm (2 ^ n) 2, Nat.mod_mul]
    omega

/-! ### The shifts and masks of R101 -/

theorem unconsumed_eq (b : Byte) {bo : Nat} (h : bo ≤ 7) : unconsumed b bo = b.toNat % 2 ^ (8 - bo) := by
  have hm : firstByteMask bo = 2 ^ (8 - bo) - 1 := by
    unfold firstByteMask
    interval_cases bo <;> rfl
  rw [unconsumed, hm, Nat.and_two_pow_sub_one_eq_mod]

theorem withinByte_eq (b : Byte) {bo n : Nat} (h : bo ≤ 7) (hn : bo + n ≤ 8) :
    withinByte b bo n = b.toNat / 2 ^ (8 - bo - n) % 2 ^ n := by
  have : 8 - bo = (8 - bo - n) + n := by omega
  rw [withinByte, unconsumed_eq b h, Nat.shiftRight_eq_div_pow]
  conv => lhs; rw [this, pow_add]
  rw [Nat.add_sub_cancel, Nat.mod_mul_right_div_self]

theorem accByte_eq (acc : Nat) (b : Byte) : accByte acc b = acc * 2 ^ 8 + b.toNat := by
  rw [accByte, ← Nat.shiftLeft_add_eq_or_of_lt b.isLt, Nat.shiftLeft_eq]

theorem accTail_eq (acc : Nat) {rem : Nat} (b : Byte) (h : rem ≤ 8) :
    accTail acc rem b = acc * 2 ^ rem + b.toNat / 2 ^ (8 - rem) := by
  have hlt : b.toNat >>> (8 - rem) < 2 ^ rem := by
    rw [Nat.shiftRight_eq_div_pow]
    apply Nat.div_lt_of_lt_mul
    rw [← pow_add]
    have : 8 - rem + rem = 8 := by omega
    rw [this]
    exact b.isLt
  rw [accTail, ← Nat.shiftLeft_add_eq_or_of_lt hlt, Nat.shiftLeft_eq, Nat.shiftRight_eq_div_pow]

/-! ### States along a READBITS -/

theorem readsOf_congr {s t : State} (h : s.sourceAt = t.sourceAt) : readsOf s = readsOf t := by
  funext l
  simp [readsOf, h]

theorem afterReads_accepted (k : Nat) (l : List Nat) (s : State) :
    (s.afterReads k l).accepted = s.accepted := by
  simp [State.accepted, acceptedByte_readsOf]

theorem afterReads_sourceAt (k : Nat) (l : List Nat) (s : State) :
    (s.afterReads k l).sourceAt = s.sourceAt :=
  sourceAt_congr rfl rfl (afterReads_accepted k l s)

theorem afterReads_zero_nil (s : State) : s.afterReads 0 [] = s := by
  simp [State.afterReads, readsOf]

theorem afterReads_afterReads (j k : Nat) (l m : List Nat) (s : State) :
    (s.afterReads j l).afterReads k m = s.afterReads (j + k) (l ++ m) := by
  have h : readsOf (s.afterReads j l) m = readsOf s m :=
    congrFun (readsOf_congr (afterReads_sourceAt j l s)) m
  rw [State.afterReads, h]
  simp [State.afterReads, readsOf, BitVec.add_assoc, BitVec.ofNat_add]

theorem memRead_eq (a : Nat) (s : State) : memRead a s = (s.sourceAt a, s.afterReads 0 [a]) := by
  simp [memRead, State.afterReads, State.record, readsOf]

theorem afterReads_advance (j k : Nat) (l : List Nat) (s : State) :
    (s.afterReads j l).advance k = s.afterReads (j + k) l := by
  simp [State.afterReads, State.advance, BitVec.add_assoc, BitVec.ofNat_add]

theorem afterReads_pos {s : State} {k : Nat} (l : List Nat) (h : s.rPos.toNat + k < 2 ^ 64) :
    (s.afterReads k l).rPos.toNat = s.rPos.toNat + k := by
  rw [afterReads_rPos, BitVec.toNat_add, BitVec.toNat_ofNat, Nat.add_mod_mod]
  exact Nat.mod_eq_of_lt h

/-! ### The reads of READBITS -/

/-- The whole-byte loop from a byte boundary, when every read succeeds. -/
theorem readWhole_ok {k acc : Nat} {s : State} (ha : s.rPos.toNat % 8 = 0)
    (hp : s.rPos.toNat + 8 * k < 2 ^ 64)
    (hr : ∀ j < k, (s.sourceAt (s.rPos.toNat / 8 + j)).isSome) :
    readWhole k acc s =
      (some (acc * 2 ^ (8 * k) + fieldAt s.sourceAt s.rPos.toNat (8 * k)),
        s.afterReads (8 * k) (List.range' (s.rPos.toNat / 8) k)) := by
  induction k generalizing acc s with
  | zero => simp [readWhole, fieldAt_zero, afterReads_zero_nil]
  | succ k ih =>
    obtain ⟨b, hb⟩ := Option.isSome_iff_exists.mp (hr 0 (by omega))
    rw [Nat.add_zero] at hb
    have hpos := afterReads_pos (s := s) (k := 8) [s.rPos.toNat / 8] (by omega)
    have hdiv : (s.rPos.toNat + 8) / 8 = s.rPos.toNat / 8 + 1 := by omega
    have hih := @ih (accByte acc b) (s.afterReads 8 [s.rPos.toNat / 8]) (by omega) (by omega)
      (by
        intro j hj
        rw [afterReads_sourceAt, hpos, hdiv]
        have := hr (j + 1) (by omega)
        rwa [Nat.add_comm j 1, ← Nat.add_assoc] at this)
    rw [hpos, hdiv, afterReads_sourceAt, afterReads_afterReads] at hih
    have hfield : fieldAt s.sourceAt s.rPos.toNat 8 = b.toNat := by
      rw [fieldAt_within hb (by omega), ha]
      simp [Nat.mod_eq_of_lt b.isLt]
    simp only [readWhole, memRead_eq, State.byteOffset, hb, afterReads_advance, Nat.zero_add]
    rw [hih, accByte_eq, List.range'_succ]
    have : 8 * (k + 1) = 8 + 8 * k := by ring
    rw [this, fieldAt_add, hfield, pow_add]
    simp only [Prod.mk.injEq, Option.some.injEq, List.singleton_append, and_true]
    ring

/-- The whole-byte loop from a byte boundary, when read number `i` is the first to fail. -/
theorem readWhole_fails {k acc i : Nat} {s : State} (ha : s.rPos.toNat % 8 = 0)
    (hp : s.rPos.toNat + 8 * k < 2 ^ 64) (hi : i < k)
    (hr : ∀ j < i, (s.sourceAt (s.rPos.toNat / 8 + j)).isSome)
    (hf : s.sourceAt (s.rPos.toNat / 8 + i) = none) :
    readWhole k acc s =
      (none, s.afterReads (8 * i) (List.range' (s.rPos.toNat / 8) (i + 1))) := by
  induction k generalizing acc s i with
  | zero => omega
  | succ k ih =>
    cases i with
    | zero =>
      rw [Nat.add_zero] at hf
      simp [readWhole, memRead_eq, State.byteOffset, hf]
    | succ i =>
      obtain ⟨b, hb⟩ := Option.isSome_iff_exists.mp (hr 0 (by omega))
      rw [Nat.add_zero] at hb
      have hpos := afterReads_pos (s := s) (k := 8) [s.rPos.toNat / 8] (by omega)
      have hdiv : (s.rPos.toNat + 8) / 8 = s.rPos.toNat / 8 + 1 := by omega
      have hih := @ih (accByte acc b) i (s.afterReads 8 [s.rPos.toNat / 8]) (by omega) (by omega)
        (by omega)
        (by
          intro j hj
          rw [afterReads_sourceAt, hpos, hdiv]
          have := hr (j + 1) (by omega)
          rwa [Nat.add_comm j 1, ← Nat.add_assoc] at this)
        (by rw [afterReads_sourceAt, hpos, hdiv, Nat.add_assoc, Nat.add_comm 1 i]; exact hf)
      rw [hpos, hdiv, afterReads_afterReads] at hih
      simp only [readWhole, memRead_eq, State.byteOffset, hb, afterReads_advance, Nat.zero_add]
      rw [hih, List.range'_succ (n := i + 1)]
      have : 8 * (i + 1) = 8 + 8 * i := by ring
      rw [this, List.singleton_append]

/-- The partial tail from a byte boundary, when its read succeeds. -/
theorem readTail_ok {rem acc : Nat} {s : State} (ha : s.rPos.toNat % 8 = 0) (hrem : rem < 8)
    (hr : rem ≠ 0 → (s.sourceAt (s.rPos.toNat / 8)).isSome) :
    readTail rem acc s =
      (some (acc * 2 ^ rem + fieldAt s.sourceAt s.rPos.toNat rem),
        s.afterReads rem (List.range' (s.rPos.toNat / 8) (if rem = 0 then 0 else 1))) := by
  unfold readTail
  by_cases h0 : rem = 0
  · simp [h0, fieldAt_zero, afterReads_zero_nil]
  · obtain ⟨b, hb⟩ := Option.isSome_iff_exists.mp (hr h0)
    have hfield : fieldAt s.sourceAt s.rPos.toNat rem = b.toNat / 2 ^ (8 - rem) := by
      rw [fieldAt_within hb (by omega), ha, Nat.sub_zero]
      apply Nat.mod_eq_of_lt
      apply Nat.div_lt_of_lt_mul
      rw [← pow_add]
      have : 8 - rem + rem = 8 := by omega
      rw [this]
      exact b.isLt
    simp [h0, memRead_eq, State.byteOffset, hb, accTail_eq acc b (by omega : rem ≤ 8), hfield,
      afterReads_advance]

theorem readTail_fails {rem acc : Nat} {s : State} (hrem : rem ≠ 0)
    (hf : s.sourceAt (s.rPos.toNat / 8) = none) :
    readTail rem acc s = (none, s.afterReads 0 [s.rPos.toNat / 8]) := by
  simp [readTail, hrem, memRead_eq, State.byteOffset, hf]

/-- How a field that spans bytes splits: the first byte, the whole bytes, the tail. -/
theorem readCount_across {p n : Nat} (h : ¬ p % 8 + n ≤ 8) :
    readCount p n =
      1 + (n - (8 - p % 8)) / 8 + (if (n - (8 - p % 8)) % 8 = 0 then 0 else 1) := by
  unfold readCount
  split <;> omega

theorem readCount_within {p n : Nat} (h : p % 8 + n ≤ 8) : readCount p n = 1 := by
  unfold readCount
  omega

/-- The reads of READBITS, when every one succeeds: the field of R103, the cursor moved past it, the addresses of R104. -/
theorem readField_ok {n : Nat} {s : State} (hp : s.rPos.toNat + n < 2 ^ 64)
    (hr : ∀ j < readCount s.rPos.toNat n, (s.sourceAt (s.rPos.toNat / 8 + j)).isSome) :
    readField n s =
      (some (fieldAt s.sourceAt s.rPos.toNat n), s.afterReads n (readAddrs s.rPos.toNat n)) := by
  have h7 : s.rPos.toNat % 8 ≤ 7 := by omega
  have hcount : 0 < readCount s.rPos.toNat n := by unfold readCount; omega
  obtain ⟨b, hb⟩ := Option.isSome_iff_exists.mp (hr 0 hcount)
  rw [Nat.add_zero] at hb
  unfold readField
  by_cases hw : s.rPos.toNat % 8 + n ≤ 8
  · rw [if_pos (by exact hw)]
    simp [readWithin, memRead_eq, State.byteOffset, State.bitOffset, hb, afterReads_advance,
      withinByte_eq b h7 hw, fieldAt_within hb hw, readAddrs, readCount_within hw]
  · rw [if_neg (by exact hw)]
    have hcnt := readCount_across hw
    set first := 8 - s.rPos.toNat % 8 with hfirst
    set rem := n - first with hrem
    have hpos := afterReads_pos (s := s) (k := first) [s.rPos.toNat / 8] (by omega)
    have hdiv : (s.rPos.toNat + first) / 8 = s.rPos.toNat / 8 + 1 := by omega
    have hal : (s.rPos.toNat + first) % 8 = 0 := by omega
    have hfst : fieldAt s.sourceAt s.rPos.toNat first = b.toNat % 2 ^ first := by
      rw [fieldAt_within hb (by omega)]
      simp [hfirst]
    have hwhole := readWhole_ok (k := rem / 8) (acc := unconsumed b s.bitOffset)
      (s := s.afterReads first [s.rPos.toNat / 8]) (by omega) (by omega)
      (by
        intro j hj
        rw [afterReads_sourceAt, hpos, hdiv]
        have := hr (j + 1) (by omega)
        rwa [Nat.add_comm j 1, ← Nat.add_assoc] at this)
    rw [hpos, hdiv, afterReads_sourceAt, afterReads_afterReads] at hwhole
    have hpos2 := afterReads_pos (s := s) (k := first + 8 * (rem / 8))
      ([s.rPos.toNat / 8] ++ List.range' (s.rPos.toNat / 8 + 1) (rem / 8)) (by omega)
    have hdiv2 : (s.rPos.toNat + (first + 8 * (rem / 8))) / 8 = s.rPos.toNat / 8 + 1 + rem / 8 := by
      omega
    have htail := readTail_ok (rem := rem % 8)
      (acc := unconsumed b s.bitOffset * 2 ^ (8 * (rem / 8)) +
        fieldAt s.sourceAt (s.rPos.toNat + first) (8 * (rem / 8)))
      (s := s.afterReads (first + 8 * (rem / 8))
        ([s.rPos.toNat / 8] ++ List.range' (s.rPos.toNat / 8 + 1) (rem / 8)))
      (by omega) (by omega)
      (by
        intro h0
        rw [afterReads_sourceAt, hpos2, hdiv2, Nat.add_assoc]
        exact hr _ (by rw [hcnt, if_neg h0]; omega))
    rw [hpos2, hdiv2, afterReads_sourceAt, afterReads_afterReads] at htail
    have hbo : 8 - s.bitOffset = first := rfl
    simp only [readAcross, memRead_eq, State.byteOffset, hb, afterReads_advance, Nat.zero_add, hbo,
      ← hrem]
    rw [hwhole]
    simp only
    rw [htail]
    have hn : n = first + 8 * (rem / 8) + rem % 8 := by omega
    have haddrs : readAddrs s.rPos.toNat n = [s.rPos.toNat / 8] ++
        List.range' (s.rPos.toNat / 8 + 1) (rem / 8) ++
        List.range' (s.rPos.toNat / 8 + 1 + rem / 8) (if rem % 8 = 0 then 0 else 1) := by
      rw [readAddrs, hcnt, Nat.add_assoc 1, Nat.add_comm 1, List.range'_succ, List.append_assoc]
      simp
    rw [haddrs]
    conv => rhs; rw [hn]
    rw [fieldAt_add, fieldAt_add, hfst, State.bitOffset, unconsumed_eq b h7, ← hfirst, Nat.add_assoc]

/-- The reads of READBITS, when read number `i` is the first to fail (R106). -/
theorem readField_fails {n i : Nat} {s : State} (hp : s.rPos.toNat + n < 2 ^ 64)
    (hi : i < readCount s.rPos.toNat n)
    (hr : ∀ j < i, (s.sourceAt (s.rPos.toNat / 8 + j)).isSome)
    (hf : s.sourceAt (s.rPos.toNat / 8 + i) = none) :
    readField n s = (none, s.afterReads (passedBefore s.rPos.toNat i)
      (List.range' (s.rPos.toNat / 8) (i + 1))) := by
  unfold readField
  by_cases hw : s.rPos.toNat % 8 + n ≤ 8
  · have hi0 : i = 0 := by have := readCount_within hw; omega
    subst hi0
    rw [Nat.add_zero] at hf
    rw [if_pos (by exact hw)]
    simp [readWithin, memRead_eq, State.byteOffset, hf, passedBefore]
  · rw [if_neg (by exact hw)]
    cases i with
    | zero =>
      rw [Nat.add_zero] at hf
      simp [readAcross, memRead_eq, State.byteOffset, hf, passedBefore]
    | succ i =>
      obtain ⟨b, hb⟩ := Option.isSome_iff_exists.mp (hr 0 (by omega))
      rw [Nat.add_zero] at hb
      have hcnt := readCount_across hw
      set first := 8 - s.rPos.toNat % 8 with hfirst
      set rem := n - first with hrem
      have hpos := afterReads_pos (s := s) (k := first) [s.rPos.toNat / 8] (by omega)
      have hdiv : (s.rPos.toNat + first) / 8 = s.rPos.toNat / 8 + 1 := by omega
      have hal : (s.rPos.toNat + first) % 8 = 0 := by omega
      have hread : ∀ j < i, ((s.afterReads first [s.rPos.toNat / 8]).sourceAt
          ((s.afterReads first [s.rPos.toNat / 8]).rPos.toNat / 8 + j)).isSome := by
        intro j hj
        rw [afterReads_sourceAt, hpos, hdiv]
        have := hr (j + 1) (by omega)
        rwa [Nat.add_comm j 1, ← Nat.add_assoc] at this
      have hfail : (s.afterReads first [s.rPos.toNat / 8]).sourceAt
          ((s.afterReads first [s.rPos.toNat / 8]).rPos.toNat / 8 + i) = none := by
        rw [afterReads_sourceAt, hpos, hdiv, Nat.add_assoc, Nat.add_comm 1 i]
        exact hf
      have hpass : passedBefore s.rPos.toNat (i + 1) = first + 8 * i := by
        rw [passedBefore, if_neg (by omega)]
        omega
      have hlist : List.range' (s.rPos.toNat / 8) (i + 1 + 1) =
          [s.rPos.toNat / 8] ++ List.range' (s.rPos.toNat / 8 + 1) (i + 1) := by
        rw [List.range'_succ, List.singleton_append]
      have hbo : 8 - s.bitOffset = first := rfl
      simp only [readAcross, memRead_eq, State.byteOffset, hb, afterReads_advance, Nat.zero_add,
        hbo, ← hrem]
      rw [hpass, hlist]
      by_cases hk : i < rem / 8
      · have hwhole := readWhole_fails (k := rem / 8) (acc := unconsumed b s.bitOffset) (i := i)
          (s := s.afterReads first [s.rPos.toNat / 8]) (by omega) (by omega) hk hread hfail
        rw [hpos, hdiv, afterReads_afterReads] at hwhole
        rw [hwhole]
      · have hik : i = rem / 8 := by
          split at hcnt <;> omega
        have h0 : rem % 8 ≠ 0 := by
          intro h0
          rw [if_pos h0] at hcnt
          omega
        have hwhole := readWhole_ok (k := rem / 8) (acc := unconsumed b s.bitOffset)
          (s := s.afterReads first [s.rPos.toNat / 8]) (by omega) (by omega) (hik ▸ hread)
        rw [hpos, hdiv, afterReads_sourceAt, afterReads_afterReads] at hwhole
        have hpos2 := afterReads_pos (s := s) (k := first + 8 * (rem / 8))
          ([s.rPos.toNat / 8] ++ List.range' (s.rPos.toNat / 8 + 1) (rem / 8)) (by omega)
        have hdiv2 : (s.rPos.toNat + (first + 8 * (rem / 8))) / 8 =
            s.rPos.toNat / 8 + 1 + rem / 8 := by omega
        have hf2 : s.sourceAt (s.rPos.toNat / 8 + 1 + rem / 8) = none := by
          rw [← hik, Nat.add_assoc, Nat.add_comm 1 i]
          exact hf
        rw [hwhole]
        simp only
        rw [readTail_fails h0 (by rw [afterReads_sourceAt, hpos2, hdiv2]; exact hf2), hpos2, hdiv2,
          afterReads_afterReads, ← hik, Nat.add_zero, List.append_assoc, List.range'_concat]
        simp

end Sys2Proof.Machine
end

