-- ==== Sys2Proof/Laws/Writer.lean ====
section
/-! SUPPORT. The bit strings of the writer, and everything WRITEBITS's loop, FLUSH's body and CLOSE's body do. -/

namespace Sys2Proof.Machine

/-! ### Bit strings as numbers -/

/-- A pending string followed by the low `n` bits of a value (R82), as a number. -/
theorem joined_eq (s : State) (n : Nat) (value : Data) :
    joined s n value = s.pending * 2 ^ n + value.toNat % 2 ^ n := rfl

/-- The low bits of a number split into a chunk on top and the rest. -/
theorem mod_split (v : Nat) {rem c : Nat} (h : c ≤ rem) :
    v % 2 ^ rem = (v / 2 ^ (rem - c) % 2 ^ c) * 2 ^ (rem - c) + v % 2 ^ (rem - c) := by
  have : 2 ^ rem = 2 ^ (rem - c) * 2 ^ c := by rw [← pow_add]; congr 1; omega
  rw [this, Nat.mod_mul]
  ring

theorem chunkBits_eq (v rem c : Nat) : chunkBits v rem c = v / 2 ^ (rem - c) % 2 ^ c := by
  rw [chunkBits, mask, Nat.and_two_pow_sub_one_eq_mod, Nat.shiftRight_eq_div_pow]

theorem chunkBits_lt (v rem c : Nat) : chunkBits v rem c < 2 ^ c := by
  rw [chunkBits_eq]
  exact Nat.mod_lt _ (by positivity)

/-- The pending bits after a chunk: the old ones on top of the chunk (R81). -/
theorem shiftedIn_pending (cache : Byte) {u c bits : Nat} (h : u + c ≤ 8) (hb : bits < 2 ^ c) :
    (shiftedIn cache c bits).toNat % 2 ^ (u + c) = (cache.toNat % 2 ^ u) * 2 ^ c + bits := by
  have hd : 2 ^ (u + c) ∣ 2 ^ 8 := pow_dvd_pow 2 h
  rw [shiftedIn, BitVec.toNat_ofNat, Nat.mod_mod_of_dvd _ hd, ← Nat.shiftLeft_add_eq_or_of_lt hb,
    Nat.shiftLeft_eq, Nat.add_comm u c, pow_add, Nat.add_comm, Nat.mod_mul, Nat.add_mul_mod_self_right,
    Nat.mod_eq_of_lt hb, Nat.add_mul_div_right _ _ (by positivity), Nat.div_eq_of_lt hb, Nat.zero_add]
  ring

/-- A byte of the string does not depend on the bits above it. -/
theorem byteOfString_mod {len bits j : Nat} (extra : Nat) (h : 8 * (j + 1) ≤ len) :
    byteOfString len (bits % 2 ^ len) j = byteOfString (len + extra) bits (j + extra / 8) ∨ extra % 8 ≠ 0 := by
  by_cases he : extra % 8 = 0
  · left
    apply BitVec.eq_of_toNat_eq
    have hidx : len + extra - 8 * (j + extra / 8 + 1) = len - 8 * (j + 1) := by omega
    have hlen : 2 ^ len = 2 ^ (len - 8 * (j + 1)) * 2 ^ (8 * (j + 1)) := by
      rw [← pow_add]; congr 1; omega
    simp only [byteOfString, BitVec.toNat_ofNat, hidx, Nat.shiftRight_eq_div_pow]
    conv => lhs; rw [hlen]
    rw [Nat.mod_mul_right_div_self, Nat.mod_mod_of_dvd]
    exact pow_dvd_pow 2 (by omega)
  · exact .inr he

/-- Dropping the first byte of a string. -/
theorem byteOfString_succ {len bits j : Nat} (h : 8 * (j + 1) ≤ len) :
    byteOfString len (bits % 2 ^ len) j = byteOfString (len + 8) bits (j + 1) := by
  rcases byteOfString_mod (bits := bits) 8 h with h | h
  · exact h
  · omega

/-- One chunk leaves the string as it is: what is pending and what is left still spell it. -/
theorem string_shiftIn (s : State) (v : Nat) {rem c : Nat} (hu : s.wUsed.toNat + c ≤ 8) (hc : c ≤ rem) :
    (shiftedIn s.wCache c (chunkBits v rem c)).toNat % 2 ^ (s.wUsed.toNat + c) * 2 ^ (rem - c) +
      v % 2 ^ (rem - c) = s.pending * 2 ^ rem + v % 2 ^ rem := by
  rw [shiftedIn_pending s.wCache hu (chunkBits_lt v rem c), mod_split v hc, chunkBits_eq, State.pending]
  have : 2 ^ rem = 2 ^ c * 2 ^ (rem - c) := by rw [← pow_add]; congr 1; omega
  rw [this]
  ring

/-! ### States along a WRITEBITS -/

theorem afterWrites_accepted (bs : List Byte) (s : State) :
    (s.afterWrites bs).accepted = s.accepted ++ bs := by
  simp [State.accepted, acceptedByte_writesOf]

theorem afterWrites_closeAnswers (bs : List Byte) (s : State) :
    (s.afterWrites bs).closeAnswers = s.closeAnswers := by
  simp [State.closeAnswers, writesOf, closeAnswer, List.filterMap_map]

theorem afterWrites_nil (s : State) : s.afterWrites [] = s := by
  simp [State.afterWrites, writesOf]

/-- A chunk that fills the cache, its emission, and the emissions after it, are the emissions of one list. -/
theorem afterWrites_cons (s : State) (c bits : Nat) (bs : List Byte) :
    (((((s.shiftIn c bits).answersDrawn 1).record
      (.sinkWrite (s.shiftIn c bits).wCache .ok)).clearUsed.afterWrites bs)) =
    (s.afterWrites ((s.shiftIn c bits).wCache :: bs)).withCache (s.shiftIn c bits).wCache 0 := by
  simp only [State.afterWrites, State.withCache, State.clearUsed, State.record, State.answersDrawn,
    State.shiftIn, State.mk.injEq, true_and, and_true, List.drop_drop, List.length_drop,
    List.length_cons, writesOf, List.map_cons, List.append_assoc, List.cons_append, List.nil_append]
  exact ⟨by rw [Nat.add_comm], by omega⟩

theorem shiftIn_used {s : State} {c : Nat} (b : Nat) (h : s.wUsed.toNat + c ≤ 8) :
    (s.shiftIn c b).wUsed.toNat = s.wUsed.toNat + c := by
  rw [shiftIn_wUsed, BitVec.toNat_ofNat]
  omega

/-- The loop of WRITEBITS, when the sink accepts every byte (R82): the bytes the joined string spells are emitted in order,
and what is left of it is pending. -/
theorem writeLoop_ok {v fuel rem : Nat} {s : State} (hu : s.wUsed.toNat ≤ 7) (hfuel : rem < fuel)
    (hok : ∀ k < (s.wUsed.toNat + rem) / 8, s.answerAt k = .ok) :
    ∃ c : Byte, ∃ u : BitVec 4,
      writeLoop v fuel rem s =
        (.ok, (s.afterWrites ((List.range ((s.wUsed.toNat + rem) / 8)).map
            (byteOfString (s.wUsed.toNat + rem) (s.pending * 2 ^ rem + v % 2 ^ rem)))).withCache c u) ∧
      u.toNat = (s.wUsed.toNat + rem) % 8 ∧
      c.toNat % 2 ^ u.toNat = (s.pending * 2 ^ rem + v % 2 ^ rem) % 2 ^ u.toNat := by
  induction fuel generalizing rem s with
  | zero => omega
  | succ fuel ih =>
    unfold writeLoop
    by_cases h0 : rem = 0
    · subst h0
      have he : (s.wUsed.toNat + 0) / 8 = 0 := by omega
      refine ⟨s.wCache, s.wUsed, ?_, by omega, by simp [State.pending, Nat.mod_one]⟩
      rw [he, List.range_zero, List.map_nil, afterWrites_nil]
      rfl
    · rw [if_neg h0]
      have hc1 : chunkSize rem s.wUsed.toNat = min rem (8 - s.wUsed.toNat) := rfl
      set c := chunkSize rem s.wUsed.toNat with hc
      have hcr : c ≤ rem := by omega
      have hcu : s.wUsed.toNat + c ≤ 8 := by omega
      have hstr := string_shiftIn s v hcu hcr
      have hused := shiftIn_used (chunkBits v rem c) hcu
      have hpend : (s.shiftIn c (chunkBits v rem c)).pending =
          (shiftedIn s.wCache c (chunkBits v rem c)).toNat % 2 ^ (s.wUsed.toNat + c) := by
        rw [State.pending, hused, shiftIn_wCache]
      simp only
      by_cases h8 : s.wUsed.toNat + c = 8
      · have hu8 : (s.shiftIn c (chunkBits v rem c)).wUsed = 8 :=
          BitVec.eq_of_toNat_eq (by rw [hused, h8]; rfl)
        have hans : (s.shiftIn c (chunkBits v rem c)).answerAt 0 = .ok := by
          rw [shiftIn_answerAt]
          exact hok 0 (by omega)
        rw [if_pos hu8, emitCache_ok hans]
        simp only
        set s2 := (((s.shiftIn c (chunkBits v rem c)).answersDrawn 1).record
          (.sinkWrite (s.shiftIn c (chunkBits v rem c)).wCache .ok)).clearUsed with hs2
        have hrem : s.wUsed.toNat + rem = (rem - c) + 8 := by omega
        have hu2 : s2.wUsed.toNat = 0 := rfl
        have hans2 : ∀ k, s2.answerAt k = s.answerAt (1 + k) := by
          intro k
          simp [hs2, answerAt_answersDrawn]
        obtain ⟨c', u', hloop, hu', hc'⟩ := @ih (rem - c) s2 (by omega) (by omega)
          (by
            intro k hk
            rw [hans2]
            exact hok _ (by omega))
        have hp2 : s2.pending = 0 := by rw [State.pending, hu2, pow_zero, Nat.mod_one]
        rw [hu2, hp2, Nat.zero_mul, Nat.zero_add, Nat.zero_add] at hloop
        rw [hp2, Nat.zero_mul, Nat.zero_add] at hc'
        rw [hu2, Nat.zero_add] at hu'
        have hbyte : (s.shiftIn c (chunkBits v rem c)).wCache =
            byteOfString (rem - c + 8) (s.pending * 2 ^ rem + v % 2 ^ rem) 0 := by
          apply BitVec.eq_of_toNat_eq
          rw [byteOfString, ← hstr, h8, BitVec.toNat_ofNat, Nat.shiftRight_eq_div_pow, shiftIn_wCache]
          have hi : rem - c + 8 - 8 * (0 + 1) = rem - c := by omega
          rw [hi, Nat.add_comm, Nat.add_mul_div_right _ _ (by positivity),
            Nat.div_eq_of_lt (Nat.mod_lt _ (by positivity)), Nat.zero_add]
          rw [Nat.mod_mod, Nat.mod_eq_of_lt (BitVec.isLt _)]
        have hmod : v % 2 ^ (rem - c) = (s.pending * 2 ^ rem + v % 2 ^ rem) % 2 ^ (rem - c) := by
          rw [← hstr, Nat.add_comm, Nat.add_mul_mod_self_right, Nat.mod_mod]
        refine ⟨c', u', ?_, by omega, ?_⟩
        · rw [hloop, hrem]
          have hlist : (List.range ((rem - c + 8) / 8)).map
                (byteOfString (rem - c + 8) (s.pending * 2 ^ rem + v % 2 ^ rem)) =
              (s.shiftIn c (chunkBits v rem c)).wCache ::
                (List.range ((rem - c) / 8)).map (byteOfString (rem - c) (v % 2 ^ (rem - c))) := by
            have : (rem - c + 8) / 8 = (rem - c) / 8 + 1 := by omega
            rw [this, List.range_succ_eq_map, List.map_cons, List.map_map, hbyte]
            congr 1
            apply List.map_congr_left
            intro j hj
            have hj : j < (rem - c) / 8 := by simpa using hj
            have := byteOfString_succ (len := rem - c) (j := j)
              (bits := s.pending * 2 ^ rem + v % 2 ^ rem) (by omega)
            rw [Function.comp_apply, Nat.succ_eq_add_one, ← this, ← hmod]
          rw [hlist]
          rw [hs2, afterWrites_cons]
          rfl
        · rw [hc', hmod, Nat.mod_mod_of_dvd]
          exact pow_dvd_pow 2 (by omega)
      · have hu8 : (s.shiftIn c (chunkBits v rem c)).wUsed ≠ 8 := by
          intro h
          rw [h] at hused
          exact h8 hused.symm
        rw [if_neg hu8]
        have hlen : s.wUsed.toNat + c + (rem - c) = s.wUsed.toNat + rem := by omega
        obtain ⟨c', u', hloop, hu', hc'⟩ := @ih (rem - c) (s.shiftIn c (chunkBits v rem c))
          (by omega) (by omega)
          (by
            intro k hk
            rw [hused, hlen] at hk
            rw [shiftIn_answerAt]
            exact hok k hk)
        rw [hused, hlen, hpend, hstr] at hloop
        rw [hpend, hstr] at hc'
        rw [hused, hlen] at hu'
        exact ⟨c', u', hloop, hu', hc'⟩

/-- The loop of WRITEBITS, when write number `i` is the first to fail (R81, R123): the bytes before it stay emitted, the byte
that failed stays in the cache, `W.used` is 8 and the writer is poisoned. -/
theorem writeLoop_fails {v fuel rem i : Nat} {s : State} (hu : s.wUsed.toNat ≤ 7) (hfuel : rem < fuel)
    (hi : i < (s.wUsed.toNat + rem) / 8) (hok : ∀ k < i, s.answerAt k = .ok)
    (herr : s.answerAt i = .err) :
    writeLoop v fuel rem s =
      (.ioErrWrite,
        (((s.afterWrites ((List.range i).map
            (byteOfString (s.wUsed.toNat + rem) (s.pending * 2 ^ rem + v % 2 ^ rem)))).afterFailedWrite
              (byteOfString (s.wUsed.toNat + rem) (s.pending * 2 ^ rem + v % 2 ^ rem) i)).withCache
                (byteOfString (s.wUsed.toNat + rem) (s.pending * 2 ^ rem + v % 2 ^ rem) i) 8)) := by
  induction fuel generalizing rem s i with
  | zero => omega
  | succ fuel ih =>
    unfold writeLoop
    by_cases h0 : rem = 0
    · omega
    · rw [if_neg h0]
      have hc1 : chunkSize rem s.wUsed.toNat = min rem (8 - s.wUsed.toNat) := rfl
      set c := chunkSize rem s.wUsed.toNat with hc
      have hcr : c ≤ rem := by omega
      have hcu : s.wUsed.toNat + c ≤ 8 := by omega
      have hstr := string_shiftIn s v hcu hcr
      have hused := shiftIn_used (chunkBits v rem c) hcu
      have hpend : (s.shiftIn c (chunkBits v rem c)).pending =
          (shiftedIn s.wCache c (chunkBits v rem c)).toNat % 2 ^ (s.wUsed.toNat + c) := by
        rw [State.pending, hused, shiftIn_wCache]
      simp only
      by_cases h8 : s.wUsed.toNat + c = 8
      · have hu8 : (s.shiftIn c (chunkBits v rem c)).wUsed = 8 :=
          BitVec.eq_of_toNat_eq (by rw [hused, h8]; rfl)
        have hrem : s.wUsed.toNat + rem = (rem - c) + 8 := by omega
        have hbyte : shiftedIn s.wCache c (chunkBits v rem c) =
            byteOfString (rem - c + 8) (s.pending * 2 ^ rem + v % 2 ^ rem) 0 := by
          apply BitVec.eq_of_toNat_eq
          rw [byteOfString, ← hstr, h8, BitVec.toNat_ofNat, Nat.shiftRight_eq_div_pow]
          have hi : rem - c + 8 - 8 * (0 + 1) = rem - c := by omega
          rw [hi, Nat.add_comm, Nat.add_mul_div_right _ _ (by positivity),
            Nat.div_eq_of_lt (Nat.mod_lt _ (by positivity)), Nat.zero_add]
          rw [Nat.mod_mod, Nat.mod_eq_of_lt (BitVec.isLt _)]
        have hmod : v % 2 ^ (rem - c) = (s.pending * 2 ^ rem + v % 2 ^ rem) % 2 ^ (rem - c) := by
          rw [← hstr, Nat.add_comm, Nat.add_mul_mod_self_right, Nat.mod_mod]
        rw [if_pos hu8, hrem]
        cases i with
        | zero =>
          have hans : (s.shiftIn c (chunkBits v rem c)).answerAt 0 = .err := by
            rw [shiftIn_answerAt]
            exact herr
          rw [emitCache_err hans, ← hbyte, List.range_zero, List.map_nil, afterWrites_nil]
          simp only [Prod.mk.injEq, true_and]
          rw [← hu8]
          rfl
        | succ i =>
          have hans : (s.shiftIn c (chunkBits v rem c)).answerAt 0 = .ok := by
            rw [shiftIn_answerAt]
            exact hok 0 (by omega)
          rw [emitCache_ok hans]
          simp only
          set s2 := (((s.shiftIn c (chunkBits v rem c)).answersDrawn 1).record
            (.sinkWrite (s.shiftIn c (chunkBits v rem c)).wCache .ok)).clearUsed with hs2
          have hu2 : s2.wUsed.toNat = 0 := rfl
          have hans2 : ∀ k, s2.answerAt k = s.answerAt (1 + k) := by
            intro k
            simp [hs2, answerAt_answersDrawn]
          have hloop := @ih (rem - c) i s2 (by omega) (by omega) (by omega)
            (by
              intro k hk
              rw [hans2]
              exact hok _ (by omega))
            (by rw [hans2, Nat.add_comm]; exact herr)
          have hp2 : s2.pending = 0 := by rw [State.pending, hu2, pow_zero, Nat.mod_one]
          rw [hu2, hp2, Nat.zero_mul, Nat.zero_add, Nat.zero_add] at hloop
          have hlast : byteOfString (rem - c) (v % 2 ^ (rem - c)) i =
              byteOfString (rem - c + 8) (s.pending * 2 ^ rem + v % 2 ^ rem) (i + 1) := by
            rw [hmod]
            exact byteOfString_succ (by omega)
          have hlist : (List.range (i + 1)).map
                (byteOfString (rem - c + 8) (s.pending * 2 ^ rem + v % 2 ^ rem)) =
              shiftedIn s.wCache c (chunkBits v rem c) ::
                (List.range i).map (byteOfString (rem - c) (v % 2 ^ (rem - c))) := by
            rw [List.range_succ_eq_map, List.map_cons, List.map_map, hbyte]
            congr 1
            apply List.map_congr_left
            intro j hj
            have hj : j < i := by simpa using hj
            have := byteOfString_succ (len := rem - c) (j := j)
              (bits := s.pending * 2 ^ rem + v % 2 ^ rem) (by omega)
            rw [Function.comp_apply, Nat.succ_eq_add_one, ← this, ← hmod]
          rw [hloop, hlast, hlist]
          rw [hs2, afterWrites_cons]
          rfl
      · have hu8 : (s.shiftIn c (chunkBits v rem c)).wUsed ≠ 8 := by
          intro h
          rw [h] at hused
          exact h8 hused.symm
        rw [if_neg hu8]
        have hlen : s.wUsed.toNat + c + (rem - c) = s.wUsed.toNat + rem := by omega
        have hloop := @ih (rem - c) i (s.shiftIn c (chunkBits v rem c)) (by omega) (by omega)
          (by omega) (by rw [shiftIn_answerAt]; exact hok) (by rw [shiftIn_answerAt]; exact herr)
        rw [hused, hlen, hpend, hstr] at hloop
        exact hloop

/-! ### FLUSH and CLOSE -/

/-- The padded byte: the pending bits on top, zeros below (R85). -/
theorem padded_eq (cache : Byte) {u : Nat} (h : u ≤ 8) :
    padded cache u = BitVec.ofNat 8 ((cache.toNat % 2 ^ u) <<< (8 - u)) := by
  apply BitVec.eq_of_toNat_eq
  have hp : 2 ^ 8 = 2 ^ (8 - u) * 2 ^ u := by rw [← pow_add]; congr 1; omega
  have hm : ∀ x, x * 2 ^ (8 - u) % 2 ^ 8 = (x % 2 ^ u) * 2 ^ (8 - u) := by
    intro x
    rw [hp, Nat.mul_comm x, Nat.mul_mod_mul_left, Nat.mul_comm]
  rw [padded, BitVec.toNat_ofNat, BitVec.toNat_ofNat, Nat.shiftLeft_eq, Nat.shiftLeft_eq]
  show _ * 2 ^ (8 - u) % 2 ^ 8 = _
  rw [hm, hm, Nat.mod_mod]

theorem flushBody_none {s : State} (h : s.wUsed = 0) : flushBody s = (.ok, s) := by
  rw [flushBody, if_pos h]

/-- FLUSH's body with bits pending, when the sink accepts the byte. -/
theorem flushBody_ok {s : State} (h : s.wUsed ≠ 0) (ha : s.answerAt 0 = .ok) :
    flushBody s =
      (.ok, (s.afterWrites [padded s.wCache s.wUsed.toNat]).withCache (padded s.wCache s.wUsed.toNat)
        (if s.platform.flushClearsUsed then 0 else s.wUsed)) := by
  have ha' : s.padCache.answerAt 0 = .ok := ha
  rw [flushBody, if_neg h, emitCache_ok ha']
  show (Status.ok, if s.platform.flushClearsUsed then _ else _) = _
  cases s.platform.flushClearsUsed <;> rfl

/-- FLUSH's body with bits pending, when the sink turns the byte down. -/
theorem flushBody_fails {s : State} (h : s.wUsed ≠ 0) (ha : s.answerAt 0 = .err) :
    flushBody s =
      (.ioErrWrite, (s.afterFailedWrite (padded s.wCache s.wUsed.toNat)).withCache
        (padded s.wCache s.wUsed.toNat) s.wUsed) := by
  have ha' : s.padCache.answerAt 0 = .err := ha
  rw [flushBody, if_neg h, emitCache_err ha']
  rfl

/-- The three outcomes of FLUSH's body. -/
theorem flushBody_cases (s : State) :
    (s.wUsed = 0 ∧ flushBody s = (.ok, s)) ∨
    (s.wUsed ≠ 0 ∧ s.answerAt 0 = .ok ∧ flushBody s =
      (.ok, (s.afterWrites [padded s.wCache s.wUsed.toNat]).withCache (padded s.wCache s.wUsed.toNat)
        (if s.platform.flushClearsUsed then 0 else s.wUsed))) ∨
    (s.wUsed ≠ 0 ∧ s.answerAt 0 = .err ∧ flushBody s =
      (.ioErrWrite, (s.afterFailedWrite (padded s.wCache s.wUsed.toNat)).withCache
        (padded s.wCache s.wUsed.toNat) s.wUsed)) := by
  by_cases h : s.wUsed = 0
  · exact .inl ⟨h, flushBody_none h⟩
  · cases ha : s.answerAt 0 with
    | ok => exact .inr (.inl ⟨h, rfl, flushBody_ok h ha⟩)
    | err => exact .inr (.inr ⟨h, rfl, flushBody_fails h ha⟩)

/-- CLOSE's body after a failed flush: the flush's outcome, and no close. -/
theorem closeBody_flush_fails {s t : State} (h : flushBody s = (.ioErrWrite, t)) :
    closeBody s = (.ioErrWrite, t) := by
  rw [closeBody, h]

theorem closeBody_no_close {s t : State} (h : flushBody s = (.ok, t))
    (hc : t.platform.sinkHasClose = false) : closeBody s = (.ok, t) := by
  rw [closeBody, h]
  simp [hc]

/-- CLOSE's body with a close capability, after a successful flush: the close's answer decides. -/
theorem closeBody_close {s t : State} (h : flushBody s = (.ok, t))
    (hc : t.platform.sinkHasClose = true) :
    closeBody s =
      (if t.answerAt 0 = .ok then .ok else .ioErrClose,
        (t.answersDrawn 1).record (.sinkClose (t.answerAt 0))) := by
  rw [closeBody, h]
  simp only [hc, if_true, sinkClose_eq]
  cases ha : t.answerAt 0 <;> simp

end Sys2Proof.Machine
end

