-- ==== Sys2Proof/Laws/Bits.lean ====
section
/-! SUPPORT. Numbers spelled as bits, most significant first: joining, cutting into bytes, and the bits of a source's field. -/

namespace Sys2Proof.Machine

theorem bitsOf_length (w v : Nat) : (bitsOf w v).length = w := by simp [bitsOf]

/-- Only the low `w` bits are spelled. -/
theorem bitsOf_mod (w v : Nat) : bitsOf w (v % 2 ^ w) = bitsOf w v := by
  unfold bitsOf
  apply List.map_congr_left
  intro i hi
  have hi : i < w := by simpa using hi
  rw [Nat.testBit_mod_two_pow]
  simp
  omega

/-- The high part is spelled before the low part. -/
theorem bitsOf_add (a b x : Nat) : bitsOf (a + b) x = bitsOf a (x / 2 ^ b) ++ bitsOf b x := by
  apply List.ext_getElem
  · simp [bitsOf]
  · intro i h1 h2
    rw [bitsOf_length] at h1
    by_cases h : i < a
    · rw [List.getElem_append_left (by rwa [bitsOf_length])]
      simp [bitsOf, Nat.testBit_div_two_pow]
      congr 1
      omega
    · rw [List.getElem_append_right (by rw [bitsOf_length]; omega)]
      simp [bitsOf]
      congr 1
      omega

/-- A number put together from two spells the one after the other. -/
theorem bitsOf_join (u n p v : Nat) :
    bitsOf (u + n) (p * 2 ^ n + v % 2 ^ n) = bitsOf u p ++ bitsOf n v := by
  rw [bitsOf_add, Nat.add_comm (p * 2 ^ n), Nat.add_mul_div_right _ _ (by positivity),
    Nat.div_eq_of_lt (Nat.mod_lt _ (by positivity)), Nat.zero_add]
  congr 1
  rw [← bitsOf_mod n (v % 2 ^ n + p * 2 ^ n), Nat.add_mul_mod_self_right, Nat.mod_mod, bitsOf_mod]

/-- The bytes of a string, and what is left of it, spell it (R82). -/
theorem bitsOf_bytes (e r x : Nat) :
    ((List.range e).map (byteOfString (8 * e + r) x)).flatMap (fun b => bitsOf 8 b.toNat) ++ bitsOf r x =
      bitsOf (8 * e + r) x := by
  induction e with
  | zero => simp
  | succ e ih =>
    have : 8 * (e + 1) + r = 8 + (8 * e + r) := by omega
    rw [this, bitsOf_add 8, ← ih, List.range_succ_eq_map, List.map_cons, List.map_map,
      List.flatMap_cons, List.append_assoc]
    congr 1
    · rw [byteOfString]
      have : 8 + (8 * e + r) - 8 * (0 + 1) = 8 * e + r := by omega
      rw [this, BitVec.toNat_ofNat, Nat.shiftRight_eq_div_pow, bitsOf_mod]
    · congr 2
      apply List.map_congr_left
      intro j hj
      have hj : j < e := by simpa using hj
      simp only [Function.comp, Nat.succ_eq_add_one, byteOfString]
      congr 2
      omega

/-- Numbers of `n` bits that spell the same bits are equal. -/
theorem bitsOf_inj {n a b : Nat} (ha : a < 2 ^ n) (hb : b < 2 ^ n) (h : bitsOf n a = bitsOf n b) :
    a = b := by
  apply Nat.eq_of_testBit_eq
  intro i
  by_cases hi : i < n
  · have := congrArg (fun l => l[n - 1 - i]?) h
    simp only [bitsOf, List.getElem?_map] at this
    rw [List.getElem?_range (by omega)] at this
    simp only [Option.map_some, Option.some.injEq] at this
    have e : n - 1 - (n - 1 - i) = i := by omega
    rwa [e] at this
  · rw [Nat.testBit_eq_false_of_lt (lt_of_lt_of_le ha (Nat.pow_le_pow_right (by omega) (by omega))),
      Nat.testBit_eq_false_of_lt (lt_of_lt_of_le hb (Nat.pow_le_pow_right (by omega) (by omega)))]

/-- The bits of a source's field are the source's stream bits (R10, R103). -/
theorem bitsOf_fieldAt (src : Nat → Option Byte) (n : Nat) (p : Nat) :
    bitsOf n (fieldAt src p n) = (List.range n).map (fun i => decide (streamBit src (p + i) = 1)) := by
  induction n generalizing p with
  | zero => rfl
  | succ n ih =>
    have sb : streamBit src p ≤ 1 := by
      unfold streamBit
      split <;> try omega
      exact Bool.toNat_le _
    have e : fieldAt src p (n + 1) = streamBit src p * 2 ^ n + fieldAt src (p + 1) n := by
      unfold fieldAt
      rw [List.range_succ_eq_map, List.map_cons, List.sum_cons, List.map_map]
      congr 1
      congr 1
      apply List.map_congr_left
      intro i hi
      simp only [Function.comp, Nat.succ_eq_add_one]
      congr 2 <;> omega
    have hlt := fieldAt_lt src (p + 1) n
    have j := bitsOf_join 1 n (streamBit src p) (fieldAt src (p + 1) n)
    rw [Nat.mod_eq_of_lt hlt] at j
    have h1 : bitsOf 1 (streamBit src p) = [decide (streamBit src p = 1)] := by
      rcases Nat.le_one_iff_eq_zero_or_eq_one.1 sb with h | h <;> rw [h] <;> rfl
    rw [e, Nat.add_comm n 1, j, ih, Nat.add_comm 1 n, List.range_succ_eq_map, List.map_cons,
      List.map_map, h1]
    simp only [List.singleton_append, Nat.add_zero, List.cons.injEq, true_and]
    apply List.map_congr_left
    intro i hi
    simp only [Function.comp, Nat.succ_eq_add_one]
    congr 2
    congr 1
    omega

/-- Bit `p` of what a list of bytes spells is bit `7 - p mod 8` of byte `p div 8` (R10). -/
theorem bytes_bit {l : List Byte} {p : Nat} {b : Byte} (h : l[p / 8]? = some b) :
    (l.flatMap (fun b => bitsOf 8 b.toNat))[p]? = some (b.toNat.testBit (7 - p % 8)) := by
  induction l generalizing p with
  | nil => simp at h
  | cons x l ih =>
    by_cases h8 : p < 8
    · have : p / 8 = 0 := by omega
      rw [this] at h
      simp only [List.getElem?_cons_zero, Option.some.injEq] at h
      subst h
      rw [List.flatMap_cons, List.getElem?_append_left (by rwa [bitsOf_length])]
      simp only [bitsOf, List.getElem?_map, List.getElem?_range h8, Option.map_some]
      congr 2
      omega
    · have e : p / 8 = (p - 8) / 8 + 1 := by omega
      rw [e, List.getElem?_cons_succ] at h
      rw [List.flatMap_cons, List.getElem?_append_right (by rw [bitsOf_length]; omega), bitsOf_length, ih h]
      congr 2
      omega

end Sys2Proof.Machine
end

