-- ==== Sys2Proof/Laws/Decode.lean ====
section
/-! SUPPORT. The fields of an assembled command word, and the maps between field values and names. -/

namespace Sys2Proof

theorem opcodeOf_opcodeBits (op : Opcode) : opcodeOf (opcodeBits op) = some op := by
  cases op <;> decide

theorem opcodeBits_of_opcodeOf {b : BitVec 4} {op : Opcode} (h : opcodeOf b = some op) :
    opcodeBits op = b := by
  revert b op
  decide +revert

theorem whenceOf_whenceBits (wh : Whence) : whenceOf (whenceBits wh) = wh := by
  cases wh <;> decide

theorem whenceBits_whenceOf (b : BitVec 2) : whenceBits (whenceOf b) = b := by
  revert b
  decide

/-- Bit `k` of an assembled word. -/
theorem assembleCmd_getLsbD (op : BitVec 4) (n : BitVec 7) (wh : BitVec 2) (k : Nat) :
    (assembleCmd op n wh).getLsbD k =
      (if k < 4 then op.getLsbD k
       else if k < 8 then false
       else if k < 15 then n.getLsbD (k - 8)
       else if k < 16 then false
       else if k < 18 then wh.getLsbD (k - 16)
       else false) := by
  simp only [assembleCmd, BitVec.getLsbD_append]
  grind

theorem cmdOp_assembleCmd (op : BitVec 4) (n : BitVec 7) (wh : BitVec 2) :
    cmdOp (assembleCmd op n wh) = op := by
  apply BitVec.eq_of_getLsbD_eq
  intro k hk
  rw [cmdOp, BitVec.getLsbD_extractLsb', assembleCmd_getLsbD]
  simp [hk]

theorem cmdRsv0_assembleCmd (op : BitVec 4) (n : BitVec 7) (wh : BitVec 2) :
    cmdRsv0 (assembleCmd op n wh) = 0 := by
  apply BitVec.eq_of_getLsbD_eq
  intro k hk
  rw [cmdRsv0, BitVec.getLsbD_extractLsb', assembleCmd_getLsbD]
  simp only [hk, decide_true, Bool.true_and, BitVec.ofNat_eq_ofNat, BitVec.getLsbD_zero]
  grind

theorem cmdN_assembleCmd (op : BitVec 4) (n : BitVec 7) (wh : BitVec 2) :
    cmdN (assembleCmd op n wh) = n := by
  apply BitVec.eq_of_getLsbD_eq
  intro k hk
  rw [cmdN, BitVec.getLsbD_extractLsb', assembleCmd_getLsbD]
  simp only [hk, decide_true, Bool.true_and]
  grind

theorem cmdRsv1_assembleCmd (op : BitVec 4) (n : BitVec 7) (wh : BitVec 2) :
    cmdRsv1 (assembleCmd op n wh) = 0 := by
  apply BitVec.eq_of_getLsbD_eq
  intro k hk
  rw [cmdRsv1, BitVec.getLsbD_extractLsb', assembleCmd_getLsbD]
  simp only [hk, decide_true, Bool.true_and, BitVec.ofNat_eq_ofNat, BitVec.getLsbD_zero]
  grind

theorem cmdWh_assembleCmd (op : BitVec 4) (n : BitVec 7) (wh : BitVec 2) :
    cmdWh (assembleCmd op n wh) = wh := by
  apply BitVec.eq_of_getLsbD_eq
  intro k hk
  rw [cmdWh, BitVec.getLsbD_extractLsb', assembleCmd_getLsbD]
  simp only [hk, decide_true, Bool.true_and]
  grind

theorem cmdRsv2_assembleCmd (op : BitVec 4) (n : BitVec 7) (wh : BitVec 2) :
    cmdRsv2 (assembleCmd op n wh) = 0 := by
  apply BitVec.eq_of_getLsbD_eq
  intro k hk
  rw [cmdRsv2, BitVec.getLsbD_extractLsb', assembleCmd_getLsbD]
  simp only [hk, decide_true, Bool.true_and, BitVec.ofNat_eq_ofNat, BitVec.getLsbD_zero]
  grind

/-- A word whose reserved fields are 0 is put together from its other three. -/
theorem assembleCmd_fields {c : Cmd} (h0 : cmdRsv0 c = 0) (h1 : cmdRsv1 c = 0) (h2 : cmdRsv2 c = 0) :
    assembleCmd (cmdOp c) (cmdN c) (cmdWh c) = c := by
  apply BitVec.eq_of_getLsbD_eq
  intro k hk
  have e0 : ∀ j, (cmdRsv0 c).getLsbD j = false := by intro j; rw [h0]; simp
  have e1 : ∀ j, (cmdRsv1 c).getLsbD j = false := by intro j; rw [h1]; simp
  have e2 : ∀ j, (cmdRsv2 c).getLsbD j = false := by intro j; rw [h2]; simp
  have f0 := e0 (k - 4)
  have f1 := e1 (k - 15)
  have f2 := e2 (k - 18)
  rw [assembleCmd_getLsbD]
  simp only [cmdOp, cmdN, cmdWh, cmdRsv0, cmdRsv1, cmdRsv2, BitVec.getLsbD_extractLsb'] at *
  split
  · simp_all
  · split
    · have : 4 + (k - 4) = k := by omega
      rw [this] at f0
      have h4 : k - 4 < 4 := by omega
      simpa [h4] using f0.symm
    · split
      · have : 8 + (k - 8) = k := by omega
        have h7 : k - 8 < 7 := by omega
        simp [this, h7]
      · split
        · have : 15 + (k - 15) = k := by omega
          have h15 : k - 15 < 1 := by omega
          rw [this] at f1
          simpa [h15] using f1.symm
        · split
          · have : 16 + (k - 16) = k := by omega
            have h16 : k - 16 < 2 := by omega
            simp [this, h16]
          · have : 18 + (k - 18) = k := by omega
            have h18 : k - 18 < 14 := by omega
            rw [this] at f2
            simpa [h18] using f2.symm

end Sys2Proof
end

