-- ==== Sys2Proof/Laws/Exec.lean ====
section
/-! SUPPORT. What a command can do, said once: the parts of the state the writer's and the reader's bodies may touch, and the
ways `exec` can answer a next state. -/

namespace Sys2Proof.Machine

/-! ### What a body may touch -/

/-- A transaction with the sink. -/
def isSinkOp : Transaction → Bool
  | .sinkWrite _ _ => true
  | .sinkClose _ => true
  | .memRead _ _ => false

/-- From `s` to `t` only the writer, the sink and its answers have moved. -/
structure OnlyWriter (s t : State) : Prop where
  rPos : t.rPos = s.rPos
  bFatal : t.bFatal = s.bFatal
  bFatalCause : t.bFatalCause = s.bFatalCause
  platform : t.platform = s.platform
  source : t.source = s.source
  host : t.host = s.host
  responses : t.responses = s.responses
  bus : ∃ ts, t.bus = s.bus ++ ts ∧ ∀ x ∈ ts, isSinkOp x = true

theorem OnlyWriter.refl (s : State) : OnlyWriter s s :=
  ⟨rfl, rfl, rfl, rfl, rfl, rfl, rfl, [], by simp⟩

theorem OnlyWriter.trans {s t u : State} (h1 : OnlyWriter s t) (h2 : OnlyWriter t u) :
    OnlyWriter s u := by
  obtain ⟨ts, hts, hs1⟩ := h1.bus
  obtain ⟨us, hus, hs2⟩ := h2.bus
  refine ⟨h2.rPos.trans h1.rPos, h2.bFatal.trans h1.bFatal, h2.bFatalCause.trans h1.bFatalCause,
    h2.platform.trans h1.platform, h2.source.trans h1.source, h2.host.trans h1.host,
    h2.responses.trans h1.responses, ts ++ us, by rw [hus, hts, List.append_assoc], ?_⟩
  intro x hx
  rcases List.mem_append.mp hx with hx | hx
  · exact hs1 x hx
  · exact hs2 x hx

/-- From `s` to `t` only the cursor has moved, and source reads have been made. -/
structure OnlyReader (s t : State) : Prop where
  wCache : t.wCache = s.wCache
  wUsed : t.wUsed = s.wUsed
  wErr : t.wErr = s.wErr
  bFatal : t.bFatal = s.bFatal
  bFatalCause : t.bFatalCause = s.bFatalCause
  platform : t.platform = s.platform
  source : t.source = s.source
  sinkScript : t.sinkScript = s.sinkScript
  draws : t.draws = s.draws
  host : t.host = s.host
  responses : t.responses = s.responses
  bus : ∃ ts, t.bus = s.bus ++ ts ∧ ∀ x ∈ ts, isSinkOp x = false

theorem OnlyReader.refl (s : State) : OnlyReader s s :=
  ⟨rfl, rfl, rfl, rfl, rfl, rfl, rfl, rfl, rfl, rfl, rfl, [], by simp⟩

theorem OnlyReader.trans {s t u : State} (h1 : OnlyReader s t) (h2 : OnlyReader t u) :
    OnlyReader s u := by
  obtain ⟨ts, hts, hs1⟩ := h1.bus
  obtain ⟨us, hus, hs2⟩ := h2.bus
  refine ⟨h2.wCache.trans h1.wCache, h2.wUsed.trans h1.wUsed, h2.wErr.trans h1.wErr,
    h2.bFatal.trans h1.bFatal, h2.bFatalCause.trans h1.bFatalCause,
    h2.platform.trans h1.platform, h2.source.trans h1.source, h2.sinkScript.trans h1.sinkScript,
    h2.draws.trans h1.draws, h2.host.trans h1.host,
    h2.responses.trans h1.responses, ts ++ us, by rw [hus, hts, List.append_assoc], ?_⟩
  intro x hx
  rcases List.mem_append.mp hx with hx | hx
  · exact hs1 x hx
  · exact hs2 x hx

theorem OnlyReader.accepted {s t : State} (h : OnlyReader s t) : t.accepted = s.accepted := by
  obtain ⟨ts, hts, hs⟩ := h.bus
  have : ts.filterMap acceptedByte = [] := by
    rw [List.filterMap_eq_nil_iff]
    intro x hx
    have := hs x hx
    cases x <;> simp_all [isSinkOp, acceptedByte]
  simp [State.accepted, hts, this]

theorem OnlyReader.closeAnswers {s t : State} (h : OnlyReader s t) :
    t.closeAnswers = s.closeAnswers := by
  obtain ⟨ts, hts, hs⟩ := h.bus
  have : ts.filterMap closeAnswer = [] := by
    rw [List.filterMap_eq_nil_iff]
    intro x hx
    have := hs x hx
    cases x <;> simp_all [isSinkOp, closeAnswer]
  simp [State.closeAnswers, hts, this]

theorem OnlyReader.sourceAt {s t : State} (h : OnlyReader s t) : t.sourceAt = s.sourceAt :=
  sourceAt_congr h.platform h.source h.accepted

theorem OnlyWriter.accepted {s t : State} (h : OnlyWriter s t) : s.accepted <+: t.accepted := by
  obtain ⟨ts, hts, -⟩ := h.bus
  exact ⟨ts.filterMap acceptedByte, by simp [State.accepted, hts]⟩

theorem OnlyWriter.sourceAt {s t : State} (h : OnlyWriter s t) (hl : s.platform.loopback = false) :
    t.sourceAt = s.sourceAt := by
  funext a
  simp [State.sourceAt, h.platform, h.source, hl]

/-! ### The writer's bodies -/

theorem record_onlyWriter {t : Transaction} (h : isSinkOp t = true) (s : State) :
    OnlyWriter s (s.record t) :=
  ⟨rfl, rfl, rfl, rfl, rfl, rfl, rfl, [t], rfl, by simp [h]⟩

theorem answersDrawn_onlyWriter (k : Nat) (s : State) : OnlyWriter s (s.answersDrawn k) :=
  ⟨rfl, rfl, rfl, rfl, rfl, rfl, rfl, [], by simp⟩

theorem shiftIn_onlyWriter (c b : Nat) (s : State) : OnlyWriter s (s.shiftIn c b) :=
  ⟨rfl, rfl, rfl, rfl, rfl, rfl, rfl, [], by simp⟩

theorem padCache_onlyWriter (s : State) : OnlyWriter s s.padCache :=
  ⟨rfl, rfl, rfl, rfl, rfl, rfl, rfl, [], by simp⟩

theorem clearUsed_onlyWriter (s : State) : OnlyWriter s s.clearUsed :=
  ⟨rfl, rfl, rfl, rfl, rfl, rfl, rfl, [], by simp⟩

theorem setWriterErr_onlyWriter (s : State) : OnlyWriter s s.setWriterErr :=
  ⟨rfl, rfl, rfl, rfl, rfl, rfl, rfl, [], by simp⟩

theorem sinkWrite_onlyWriter (v : Byte) (s : State) : OnlyWriter s (sinkWrite v s).2 := by
  rw [sinkWrite_eq]
  exact (answersDrawn_onlyWriter 1 s).trans (record_onlyWriter rfl _)

theorem sinkClose_onlyWriter (s : State) : OnlyWriter s (sinkClose s).2 := by
  rw [sinkClose_eq]
  exact (answersDrawn_onlyWriter 1 s).trans (record_onlyWriter rfl _)

theorem emitCache_onlyWriter (s : State) : OnlyWriter s (emitCache s).2 := by
  have h := sinkWrite_onlyWriter s.wCache s
  unfold emitCache
  split <;> rename_i s' heq <;> rw [heq] at h
  · exact h
  · exact h.trans (setWriterErr_onlyWriter s')

theorem writeLoop_onlyWriter (v fuel rem : Nat) (s : State) :
    OnlyWriter s (writeLoop v fuel rem s).2 := by
  induction fuel generalizing rem s with
  | zero => exact OnlyWriter.refl s
  | succ fuel ih =>
    unfold writeLoop
    split
    · exact OnlyWriter.refl s
    · simp only
      have h1 := shiftIn_onlyWriter (chunkSize rem s.wUsed.toNat)
        (chunkBits v rem (chunkSize rem s.wUsed.toNat)) s
      split
      · have h2 := h1.trans (emitCache_onlyWriter _)
        split <;> rename_i s2 heq <;> rw [heq] at h2
        · exact h2
        · exact (h2.trans (clearUsed_onlyWriter s2)).trans (ih _ _)
      · exact h1.trans (ih _ _)

/-- The loop answers OK or IO_ERR_WRITE. -/
theorem writeLoop_status (v fuel rem : Nat) (s : State) :
    (writeLoop v fuel rem s).1 = .ok ∨ (writeLoop v fuel rem s).1 = .ioErrWrite := by
  induction fuel generalizing rem s with
  | zero => exact .inl rfl
  | succ fuel ih =>
    unfold writeLoop
    split
    · exact .inl rfl
    · simp only
      split
      · split
        · exact .inr rfl
        · exact ih _ _
      · exact ih _ _

theorem flushBody_onlyWriter (s : State) : OnlyWriter s (flushBody s).2 := by
  unfold flushBody
  split
  · exact OnlyWriter.refl s
  · have h := (padCache_onlyWriter s).trans (emitCache_onlyWriter _)
    split <;> rename_i s1 heq <;> rw [heq] at h
    · exact h
    · show OnlyWriter s (if s1.platform.flushClearsUsed then s1.clearUsed else s1)
      split
      · exact h.trans (clearUsed_onlyWriter s1)
      · exact h

theorem closeBody_onlyWriter (s : State) : OnlyWriter s (closeBody s).2 := by
  have h := flushBody_onlyWriter s
  unfold closeBody
  split
  · rename_i s1 heq
    rw [heq] at h
    split
    · have h2 := h.trans (sinkClose_onlyWriter s1)
      split <;> rename_i s2 heq2 <;> rw [heq2] at h2 <;> exact h2
    · exact h
  · rename_i st s1 _ heq
    rw [heq] at h
    exact h

/-! ### The reader's bodies -/

theorem afterReads_onlyReader (k : Nat) (l : List Nat) (s : State) : OnlyReader s (s.afterReads k l) :=
  ⟨rfl, rfl, rfl, rfl, rfl, rfl, rfl, rfl, rfl, rfl, rfl, readsOf s l, rfl, by
    intro x hx
    obtain ⟨a, -, rfl⟩ := List.mem_map.mp hx
    rfl⟩

theorem advance_onlyReader (k : Nat) (s : State) : OnlyReader s (s.advance k) :=
  ⟨rfl, rfl, rfl, rfl, rfl, rfl, rfl, rfl, rfl, rfl, rfl, [], by simp⟩

theorem setPos_onlyReader (p : Int) (s : State) : OnlyReader s (s.setPos p) :=
  ⟨rfl, rfl, rfl, rfl, rfl, rfl, rfl, rfl, rfl, rfl, rfl, [], by simp⟩

theorem memRead_onlyReader (a : Nat) (s : State) : OnlyReader s (memRead a s).2 := by
  rw [memRead_eq]
  exact afterReads_onlyReader 0 [a] s

theorem readWhole_onlyReader (k acc : Nat) (s : State) : OnlyReader s (readWhole k acc s).2 := by
  induction k generalizing acc s with
  | zero => exact OnlyReader.refl s
  | succ k ih =>
    unfold readWhole
    have h := memRead_onlyReader s.byteOffset s
    split <;> rename_i s1 heq <;> rw [heq] at h
    · exact h
    · exact (h.trans (advance_onlyReader 8 s1)).trans (ih _ _)

theorem readTail_onlyReader (rem acc : Nat) (s : State) : OnlyReader s (readTail rem acc s).2 := by
  unfold readTail
  split
  · exact OnlyReader.refl s
  · have h := memRead_onlyReader s.byteOffset s
    split <;> rename_i s1 heq <;> rw [heq] at h
    · exact h
    · exact h.trans (advance_onlyReader rem s1)

theorem readField_onlyReader (n : Nat) (s : State) : OnlyReader s (readField n s).2 := by
  have h := memRead_onlyReader s.byteOffset s
  unfold readField
  split
  · unfold readWithin
    split <;> rename_i s1 heq <;> rw [heq] at h
    · exact h
    · exact h.trans (advance_onlyReader n s1)
  · unfold readAcross
    split <;> rename_i s1 heq <;> rw [heq] at h
    · exact h
    · rename_i b
      simp only
      have h2 := (h.trans (advance_onlyReader (8 - s.bitOffset) s1)).trans
        (readWhole_onlyReader ((n - (8 - s.bitOffset)) / 8) (unconsumed b s.bitOffset) _)
      split <;> rename_i s2 heq2 <;> rw [heq2] at h2
      · exact h2
      · exact h2.trans (readTail_onlyReader _ _ s2)

/-! ### Entries and meanings -/

/-- A writer command that answers a next state was not stuck, and answered ILLEGAL, WRITER_UNUSABLE, or its body's state. -/
theorem writerEntry_next {legal : Bool} {body : State → State} {s t : State}
    (h : writerEntry legal body s = .next t) :
    s.bFatal = false ∧
      ((legal = false ∧ t = s.respond .illegal 0) ∨
       (legal = true ∧ s.wErr = true ∧ t = s.respond .writerUnusable 0) ∨
       (legal = true ∧ s.wErr = false ∧ t = body s)) := by
  unfold writerEntry answerIllegal at h
  cases hf : s.bFatal <;> cases legal <;> cases he : s.wErr <;> simp_all

theorem readerEntry_next {legal : Bool} {body : State → State} {s t : State}
    (h : readerEntry legal body s = .next t) :
    s.bFatal = false ∧
      ((legal = false ∧ t = s.respond .illegal 0) ∨ (legal = true ∧ t = body s)) := by
  unfold readerEntry answerIllegal at h
  cases hf : s.bFatal <;> cases legal <;> simp_all

theorem writerEntry_ready {body : State → State} {s : State} (hf : s.bFatal = false)
    (he : s.wErr = false) : writerEntry true body s = .next (body s) := by
  simp [writerEntry, hf, he]

theorem readerEntry_ready {body : State → State} {s : State} (hf : s.bFatal = false) :
    readerEntry true body s = .next (body s) := by
  simp [readerEntry, hf]

/-! ### `exec`, one command at a time -/

theorem exec_writebits (n : Nat) (value : Data) (s : State) :
    exec (.writebits n value) s = writerEntry (decide (n ≤ 64))
      (fun s => (writeLoop value.toNat (n + 1) n s).2.respond
        (writeLoop value.toNat (n + 1) n s).1 0) s := rfl

theorem exec_flush (s : State) :
    exec .flush s = writerEntry true (fun s => (flushBody s).2.respond (flushBody s).1 0) s := rfl

theorem exec_close (s : State) :
    exec .close s = writerEntry true (fun s => (closeBody s).2.respond (closeBody s).1 0) s := rfl

theorem exec_readbits (n : Nat) (s : State) :
    exec (.readbits n) s = readerEntry (decide (n ≤ 64)) (readBody n) s := rfl

theorem exec_seek (wh : Whence) (offset : Data) (s : State) :
    exec (.seek wh offset) s = readerEntry true (seekBody wh offset) s := rfl

theorem exec_skip (offset : Data) (s : State) :
    exec (.skip offset) s = readerEntry true (skipBody offset) s := rfl

theorem exec_tell (s : State) :
    exec .tell s = readerEntry true (fun s => s.respond .ok s.rPos) s := rfl

/-- A stuck block performs no command. -/
theorem exec_stuck (i : Instr) {s : State} (h : s.bFatal = true) : exec i s = .fault .stuck := by
  cases i <;>
    simp [exec_writebits, exec_flush, exec_close, exec_readbits, exec_seek, exec_skip, exec_tell,
      writerEntry, readerEntry, h]

theorem exec_writebits_ready {s : State} {n : Nat} (value : Data) (hf : s.bFatal = false)
    (he : s.wErr = false) (hn : n ≤ 64) :
    exec (.writebits n value) s = .next ((writeLoop value.toNat (n + 1) n s).2.respond
      (writeLoop value.toNat (n + 1) n s).1 0) := by
  rw [exec_writebits, decide_eq_true hn, writerEntry_ready hf he]

theorem exec_flush_ready {s : State} (hf : s.bFatal = false) (he : s.wErr = false) :
    exec .flush s = .next ((flushBody s).2.respond (flushBody s).1 0) := by
  rw [exec_flush, writerEntry_ready hf he]

theorem exec_close_ready {s : State} (hf : s.bFatal = false) (he : s.wErr = false) :
    exec .close s = .next ((closeBody s).2.respond (closeBody s).1 0) := by
  rw [exec_close, writerEntry_ready hf he]

theorem exec_readbits_ready {s : State} {n : Nat} (hf : s.bFatal = false) (hn : n ≤ 64) :
    exec (.readbits n) s = .next (readBody n s) := by
  rw [exec_readbits, decide_eq_true hn, readerEntry_ready hf]

theorem exec_seek_ready {s : State} (wh : Whence) (offset : Data) (hf : s.bFatal = false) :
    exec (.seek wh offset) s = .next (seekBody wh offset s) := by
  rw [exec_seek, readerEntry_ready hf]

theorem exec_skip_ready {s : State} (offset : Data) (hf : s.bFatal = false) :
    exec (.skip offset) s = .next (skipBody offset s) := by
  rw [exec_skip, readerEntry_ready hf]

/-- Every next state of a writer command: only the writer has moved, then one response with RESULT 0. -/
theorem exec_writer_next {i : Instr} {s t : State} (hi : i.isWriter = true)
    (h : exec i s = .next t) :
    s.bFatal = false ∧ ∃ u st, OnlyWriter s u ∧ t = u.respond st 0 := by
  have key : ∀ {legal : Bool} {b : State → Status × State}, (∀ s, OnlyWriter s (b s).2) →
      writerEntry legal (fun s => (b s).2.respond (b s).1 0) s = .next t →
      s.bFatal = false ∧ ∃ u st, OnlyWriter s u ∧ t = u.respond st 0 := by
    intro legal b hb h
    obtain ⟨hf, ⟨-, rfl⟩ | ⟨-, -, rfl⟩ | ⟨-, -, rfl⟩⟩ := writerEntry_next h
    · exact ⟨hf, s, _, OnlyWriter.refl s, rfl⟩
    · exact ⟨hf, s, _, OnlyWriter.refl s, rfl⟩
    · exact ⟨hf, _, _, hb s, rfl⟩
  cases i with
  | writebits n v => exact key (writeLoop_onlyWriter _ _ _) h
  | flush => exact key flushBody_onlyWriter h
  | close => exact key closeBody_onlyWriter h
  | readbits n => cases hi
  | seek wh o => cases hi
  | skip o => cases hi
  | tell => cases hi

theorem moveCursor_cases (new : Int) (r : Data) (s : State) :
    (cursorLegal new = true ∧ moveCursor new r s = (s.setPos new).respond .ok r) ∨
    (cursorLegal new = false ∧ moveCursor new r s = s.raiseFatal .range) := by
  unfold moveCursor
  cases cursorLegal new <;> simp

/-- The three outcomes of READBITS's body. -/
theorem readBody_cases (n : Nat) (s : State) :
    (Config.posMax < s.rPos.toInt + n ∧ readBody n s = s.raiseFatal .range) ∨
    (s.rPos.toInt + n ≤ Config.posMax ∧ ∃ v t, readField n s = (some v, t) ∧
      readBody n s = t.respond .ok (BitVec.ofNat 64 v)) ∨
    (s.rPos.toInt + n ≤ Config.posMax ∧ ∃ t, readField n s = (none, t) ∧
      readBody n s = t.raiseFatal .readFail) := by
  unfold readBody
  split
  · exact .inl ⟨by omega, rfl⟩
  · right
    rcases h : readField n s with ⟨v, t⟩
    cases v with
    | none => exact .inr ⟨by omega, t, rfl, rfl⟩
    | some v => exact .inl ⟨by omega, v, t, rfl, rfl⟩

/-- Every next state of a reader command: only the cursor has moved, then one response or FATAL. -/
theorem exec_reader_next {i : Instr} {s t : State} (hi : i.isWriter = false)
    (h : exec i s = .next t) :
    s.bFatal = false ∧ ∃ u, OnlyReader s u ∧
      ((∃ st r, t = u.respond st r) ∨ ∃ c, t = u.raiseFatal c) := by
  have key : ∀ {legal : Bool} {b : State → State},
      (∃ u, OnlyReader s u ∧ ((∃ st r, b s = u.respond st r) ∨ ∃ c, b s = u.raiseFatal c)) →
      readerEntry legal b s = .next t →
      s.bFatal = false ∧ ∃ u, OnlyReader s u ∧
        ((∃ st r, t = u.respond st r) ∨ ∃ c, t = u.raiseFatal c) := by
    intro legal b hb h
    obtain ⟨hf, ⟨-, rfl⟩ | ⟨-, rfl⟩⟩ := readerEntry_next h
    · exact ⟨hf, s, OnlyReader.refl s, .inl ⟨_, _, rfl⟩⟩
    · exact ⟨hf, hb⟩
  have move : ∀ new r, ∃ u, OnlyReader s u ∧
      ((∃ st r', moveCursor new r s = u.respond st r') ∨ ∃ c, moveCursor new r s = u.raiseFatal c) := by
    intro new r
    rcases moveCursor_cases new r s with ⟨-, h⟩ | ⟨-, h⟩
    · exact ⟨_, setPos_onlyReader new s, .inl ⟨_, _, h⟩⟩
    · exact ⟨_, OnlyReader.refl s, .inr ⟨_, h⟩⟩
  cases i with
  | writebits n v => cases hi
  | flush => cases hi
  | close => cases hi
  | readbits n =>
    refine key ?_ h
    have hr := readField_onlyReader n s
    rcases readBody_cases n s with ⟨-, hb⟩ | ⟨-, v, u, hu, hb⟩ | ⟨-, u, hu, hb⟩
    · exact ⟨s, OnlyReader.refl s, .inr ⟨_, hb⟩⟩
    · rw [hu] at hr
      exact ⟨u, hr, .inl ⟨_, _, hb⟩⟩
    · rw [hu] at hr
      exact ⟨u, hr, .inr ⟨_, hb⟩⟩
  | seek wh o =>
    refine key ?_ h
    unfold seekBody
    cases seekTarget wh o s with
    | none => exact ⟨s, OnlyReader.refl s, .inr ⟨_, rfl⟩⟩
    | some new => exact move new _
  | skip o =>
    refine key ?_ h
    exact move (skipTarget o s) 0
  | tell =>
    refine key ?_ h
    exact ⟨s, OnlyReader.refl s, .inl ⟨_, _, rfl⟩⟩

/-- The reads of READBITS either all succeed or there is a first that fails. -/
theorem readField_cases {n : Nat} {s : State} (hp : s.rPos.toNat + n < 2 ^ 64) :
    ((∀ j < readCount s.rPos.toNat n, (s.sourceAt (s.rPos.toNat / 8 + j)).isSome = true) ∧
      readField n s =
        (some (fieldAt s.sourceAt s.rPos.toNat n), s.afterReads n (readAddrs s.rPos.toNat n))) ∨
    ∃ i < readCount s.rPos.toNat n,
      (∀ j < i, (s.sourceAt (s.rPos.toNat / 8 + j)).isSome = true) ∧
      s.sourceAt (s.rPos.toNat / 8 + i) = none ∧
      readField n s = (none, s.afterReads (passedBefore s.rPos.toNat i)
        (List.range' (s.rPos.toNat / 8) (i + 1))) := by
  by_cases hall : ∀ j < readCount s.rPos.toNat n, (s.sourceAt (s.rPos.toNat / 8 + j)).isSome = true
  · exact .inl ⟨hall, readField_ok hp hall⟩
  · right
    classical
    have hex : ∃ j, j < readCount s.rPos.toNat n ∧
        ¬ (s.sourceAt (s.rPos.toNat / 8 + j)).isSome = true := by
      by_contra hno
      exact hall fun j hj => by_contra fun hn => hno ⟨j, hj, hn⟩
    obtain ⟨hlt, hnone⟩ := Nat.find_spec hex
    have hmin : ∀ j < Nat.find hex, (s.sourceAt (s.rPos.toNat / 8 + j)).isSome = true := by
      intro j hj
      by_contra hn
      exact Nat.find_min hex hj ⟨hj.trans hlt, hn⟩
    have hf : s.sourceAt (s.rPos.toNat / 8 + Nat.find hex) = none := by simpa using hnone
    exact ⟨Nat.find hex, hlt, hmin, hf, readField_fails hp hlt hmin hf⟩

end Sys2Proof.Machine
end

