-- ==== Sys2Proof/Laws/Memory.lean ====
section
/-! SUPPORT. The source's memory: every operation keeps the canonical form, and a read after a write. -/

namespace Sys2Proof.Machine

theorem Memory.mem_place {a : Nat} {b : Byte} {m : Memory} {x : Host.Cell}
    (h : x ∈ Memory.place a b m) : x = (a, b) ∨ x ∈ m := by
  induction m with
  | nil => simpa [Memory.place] using h
  | cons y rest ih =>
    obtain ⟨a', b'⟩ := y
    unfold Memory.place at h
    split at h
    · simpa using h
    · split at h
      · rcases List.mem_cons.mp h with h | h
        · exact .inl h
        · exact .inr (List.mem_cons_of_mem _ h)
      · rcases List.mem_cons.mp h with h | h
        · exact .inr (by simp [h])
        · rcases ih h with h | h
          · exact .inl h
          · exact .inr (List.mem_cons_of_mem _ h)

theorem Memory.place_pairwise {a : Nat} {b : Byte} {m : Memory}
    (h : m.Pairwise (fun x y => x.1 < y.1)) :
    (Memory.place a b m).Pairwise (fun x y => x.1 < y.1) := by
  induction m with
  | nil => simp [Memory.place]
  | cons y rest ih =>
    obtain ⟨a', b'⟩ := y
    obtain ⟨h1, h2⟩ := List.pairwise_cons.mp h
    unfold Memory.place
    split
    · rename_i hlt
      refine List.pairwise_cons.mpr ⟨fun x hx => ?_, h⟩
      rcases List.mem_cons.mp hx with hx | hx
      · simpa [hx] using hlt
      · exact hlt.trans (h1 x hx)
    · split
      · rename_i heq
        refine List.pairwise_cons.mpr ⟨fun x hx => ?_, h2⟩
        subst heq; exact h1 x hx
      · rename_i hlt hne
        refine List.pairwise_cons.mpr ⟨fun x hx => ?_, ih h2⟩
        rcases Memory.mem_place hx with hx | hx
        · simp only [hx]; omega
        · exact h1 x hx

/-- Writing keeps the canonical form. -/
theorem Memory.write_wf {m : Memory} (a : Nat) (b : Byte) (h : m.wf) : (m.write a b).wf := by
  unfold Memory.write
  split
  · rename_i ha
    refine ⟨Memory.place_pairwise h.1, fun x hx => ?_⟩
    rcases Memory.mem_place hx with hx | hx
    · simpa [hx] using ha
    · exact h.2 x hx
  · exact h

theorem Memory.writeBytes_wf {m : Memory} (a : Nat) (bs : List Byte) (h : m.wf) :
    (m.writeBytes a bs).wf := by
  induction bs generalizing m a with
  | nil => exact h
  | cons b rest ih => exact ih (a + 1) (Memory.write_wf a b h)

theorem Memory.nil_wf : Memory.wf [] := ⟨List.Pairwise.nil, fun _ h => nomatch h⟩

theorem Memory.ofBytes_wf (bs : List Byte) : (Memory.ofBytes bs).wf :=
  Memory.writeBytes_wf 0 bs Memory.nil_wf

theorem reset_source_wf : State.reset.source.wf := Memory.nil_wf

theorem Memory.read_place (a x : Nat) (b : Byte) (m : Memory) :
    Memory.read (Memory.place a b m) x = if x = a then some b else m.read x := by
  induction m with
  | nil => rfl
  | cons y rest ih =>
    obtain ⟨a', b'⟩ := y
    unfold Memory.place
    split
    · rfl
    · split
      · rename_i heq
        subst heq
        simp only [Memory.read]
        split <;> rfl
      · rename_i hlt hne
        simp only [Memory.read, ih]
        grind

/-- A read after a write: the byte written where it was written, and every other address as before. -/
theorem Memory.read_write (m : Memory) (a x : Nat) (b : Byte)
    (ha : a < 2 ^ Config.srcAddrWidth) :
    (m.write a b).read x = if x = a then some b else m.read x := by
  rw [Memory.write, if_pos ha]
  exact Memory.read_place a x b m

end Sys2Proof.Machine
end

