-- ==== Sys2Proof/Laws/PerInstr.lean ====
section
/-! SUPPORT. One statement about every command as syntax, a lemma for each constructor: its encoded word is legal (R64, R65). -/

namespace Sys2Proof.Laws.LegalWord

/-- The word of a well-formed command is one of the legal words: it matches a row of R64's table and meets its condition. -/
def Statement (i : Instr) : Prop := i.wf = true → legalWord (encode i).1 = true

theorem widths_legal : ∀ n < 65,
    legalWord (assembleCmd (opcodeBits .writebits) (BitVec.ofNat 7 n) 0) = true ∧
    legalWord (assembleCmd (opcodeBits .readbits) (BitVec.ofNat 7 n) 0) = true := by decide

theorem writebits (n : Nat) (value : Data) : Statement (.writebits n value) := fun h =>
  (widths_legal n (Nat.lt_succ_of_le (of_decide_eq_true h))).1

theorem flush : Statement .flush := fun _ => by decide

theorem close : Statement .close := fun _ => by decide

theorem readbits (n : Nat) : Statement (.readbits n) := fun h =>
  (widths_legal n (Nat.lt_succ_of_le (of_decide_eq_true h))).2

theorem seek (wh : Whence) (offset : Data) : Statement (.seek wh offset) := fun _ => by
  show legalWord (assembleCmd (opcodeBits .seek) 0 (whenceBits wh)) = true
  cases wh <;> decide

theorem skip (offset : Data) : Statement (.skip offset) := fun _ =>
  show legalWord (assembleCmd (opcodeBits .skip) 0 0) = true by decide

theorem tell : Statement .tell := fun _ => by decide

end Sys2Proof.Laws.LegalWord
end

