-- ==== Sys2Proof/Laws/Run.lean ====
section
/-! SUPPORT. Runs of the machine, one step after another. -/

namespace Sys2Proof.Machine

/-- A run that begins with a step. -/
theorem run_succ {k : Nat} {s s' : State} (h : step s = .next s') :
    Sys2Proof.core.run (k + 1) s = Sys2Proof.core.run k s' := by
  have h' : Sys2Proof.core.step s = .next s' := h
  simp only [Host.Core.run, h']

/-- A run whose first `j` steps reach `t` goes on from `t`. -/
theorem run_add {j k : Nat} {s t : State} (h : Sys2Proof.core.run j s = .next t) :
    Sys2Proof.core.run (j + k) s = Sys2Proof.core.run k t := by
  induction j generalizing s with
  | zero =>
    cases h
    rw [Nat.zero_add]
  | succ j ih =>
    rw [show j + 1 + k = (j + k) + 1 by omega]
    have hrun : Sys2Proof.core.run (j + 1) s = _ := h
    cases hs : Sys2Proof.core.step s with
    | next s' =>
      simp only [Host.Core.run, hs] at h ⊢
      exact ih h
    | fault r =>
      simp only [Host.Core.run, hs] at h
      cases h
    | refused r =>
      simp only [Host.Core.run, hs] at h
      cases h

end Sys2Proof.Machine
end

