-- ==== Sys2Proof/Laws/Views.lean ====
section
/-! SUPPORT. What a unit's bodies can see: a writer's body is not affected by the cursor, and a reader's body is not affected
by the writer's registers; neither by the transactions and responses before it (R2, R132). -/

namespace Sys2Proof.Machine

/-! ### A writer's body -/

/-- The state with another cursor, and with earlier transactions and responses before its own. -/
def State.withReader (p : Data) (earlier : List Transaction) (rs : List (Option Response)) (s : State) : State :=
  { s with rPos := p, bus := earlier ++ s.bus, responses := rs ++ s.responses }

theorem emitCache_withReader (p : Data) (ts : List Transaction) (rs : List (Option Response)) (s : State) :
    emitCache (s.withReader p ts rs) = ((emitCache s).1, (emitCache s).2.withReader p ts rs) := by
  have ha : (s.withReader p ts rs).answerAt 0 = s.answerAt 0 := rfl
  rcases emitCache_cases s with ⟨h0, h⟩ | ⟨h0, h⟩
  · rw [h, emitCache_ok (ha.trans h0)]
    simp [State.withReader, State.record, State.answersDrawn]
  · rw [h, emitCache_err (ha.trans h0)]
    simp [State.withReader, State.record, State.answersDrawn, State.setWriterErr]

theorem writeLoop_withReader (p : Data) (ts : List Transaction) (rs : List (Option Response))
    (v fuel rem : Nat) (s : State) :
    writeLoop v fuel rem (s.withReader p ts rs) =
      ((writeLoop v fuel rem s).1, (writeLoop v fuel rem s).2.withReader p ts rs) := by
  induction fuel generalizing rem s with
  | zero => rfl
  | succ fuel ih =>
    unfold writeLoop
    split
    · rfl
    · simp only
      have e0 : (s.withReader p ts rs).wUsed = s.wUsed := rfl
      rw [e0]
      set k := chunkSize rem s.wUsed.toNat
      have e1 : (s.withReader p ts rs).shiftIn k (chunkBits v rem k) =
          (s.shiftIn k (chunkBits v rem k)).withReader p ts rs := rfl
      have e2 : ((s.shiftIn k (chunkBits v rem k)).withReader p ts rs).wUsed =
          (s.shiftIn k (chunkBits v rem k)).wUsed := rfl
      rw [e1, emitCache_withReader, e2]
      split
      · rcases emitCache (s.shiftIn k (chunkBits v rem k)) with ⟨_ | _, u⟩
        · exact ih _ u.clearUsed
        · rfl
      · exact ih _ _

theorem flushBody_withReader (p : Data) (ts : List Transaction) (rs : List (Option Response)) (s : State) :
    flushBody (s.withReader p ts rs) = ((flushBody s).1, (flushBody s).2.withReader p ts rs) := by
  unfold flushBody
  have e0 : (s.withReader p ts rs).wUsed = s.wUsed := rfl
  have e1 : (s.withReader p ts rs).padCache = s.padCache.withReader p ts rs := rfl
  rw [e0, e1, emitCache_withReader]
  split
  · rfl
  · rcases emitCache s.padCache with ⟨_ | _, u⟩
    · show (Status.ok, if u.platform.flushClearsUsed then _ else _) =
        (Status.ok, (if u.platform.flushClearsUsed then _ else _ : State).withReader p ts rs)
      split <;> rfl
    · rfl

theorem closeBody_withReader (p : Data) (ts : List Transaction) (rs : List (Option Response)) (s : State) :
    closeBody (s.withReader p ts rs) = ((closeBody s).1, (closeBody s).2.withReader p ts rs) := by
  unfold closeBody
  rw [flushBody_withReader]
  rcases flushBody s with ⟨st, u⟩
  cases st <;> try rfl
  have e : sinkClose (u.withReader p ts rs) = ((sinkClose u).1, (sinkClose u).2.withReader p ts rs) := by
    rw [sinkClose_eq, sinkClose_eq]
    have ha : (u.withReader p ts rs).answerAt 0 = u.answerAt 0 := rfl
    rw [ha]
    simp [State.withReader, State.record, State.answersDrawn]
  show (if u.platform.sinkHasClose then _ else _) = _
  rw [e]
  dsimp only
  split
  · rcases sinkClose u with ⟨_ | _, w⟩ <;> rfl
  · rfl

/-! ### A reader's body -/

/-- The writer's registers, the sink's answers to come, and earlier transactions and responses. -/
structure WriterView where
  cache : Byte
  used : BitVec 4
  err : Bool
  script : List SinkAnswer
  draws : Nat
  earlier : List Transaction
  responses : List (Option Response)

/-- The state with another writer, and with earlier transactions and responses before its own. -/
def State.withWriter (w : WriterView) (s : State) : State :=
  { s with
    wCache := w.cache
    wUsed := w.used
    wErr := w.err
    sinkScript := w.script
    draws := w.draws
    bus := w.earlier ++ s.bus
    responses := w.responses ++ s.responses }

theorem memRead_withWriter (a : Nat) (w : WriterView) {s : State} (hl : s.platform.loopback = false) :
    memRead a (s.withWriter w) = ((memRead a s).1, (memRead a s).2.withWriter w) := by
  have : (s.withWriter w).sourceAt a = s.sourceAt a := by
    simp only [State.sourceAt, State.withWriter, hl]
    rfl
  simp only [memRead, this]
  simp [State.withWriter, State.record]

theorem memRead_platform (a : Nat) (s : State) : (memRead a s).2.platform = s.platform := rfl

theorem readWhole_withWriter (w : WriterView) (k acc : Nat) {s : State} (hl : s.platform.loopback = false) :
    readWhole k acc (s.withWriter w) = ((readWhole k acc s).1, (readWhole k acc s).2.withWriter w) := by
  induction k generalizing acc s with
  | zero => rfl
  | succ k ih =>
    unfold readWhole
    have e : (s.withWriter w).byteOffset = s.byteOffset := rfl
    rw [e, memRead_withWriter _ _ hl]
    have hp := memRead_platform s.byteOffset s
    rcases hm : memRead s.byteOffset s with ⟨_ | b, u⟩
    · rfl
    · rw [hm] at hp
      exact ih _ (s := u.advance 8) ((congrArg Platform.loopback hp).trans hl)

theorem readTail_withWriter (w : WriterView) (rem acc : Nat) {s : State} (hl : s.platform.loopback = false) :
    readTail rem acc (s.withWriter w) = ((readTail rem acc s).1, (readTail rem acc s).2.withWriter w) := by
  unfold readTail
  split
  · rfl
  · have e : (s.withWriter w).byteOffset = s.byteOffset := rfl
    rw [e, memRead_withWriter _ _ hl]
    rcases memRead s.byteOffset s with ⟨_ | b, u⟩ <;> rfl

theorem readField_withWriter (w : WriterView) (n : Nat) {s : State} (hl : s.platform.loopback = false) :
    readField n (s.withWriter w) = ((readField n s).1, (readField n s).2.withWriter w) := by
  unfold readField
  have e : (s.withWriter w).bitOffset = s.bitOffset := rfl
  have e2 : (s.withWriter w).byteOffset = s.byteOffset := rfl
  have hp := memRead_platform s.byteOffset s
  rw [e]
  split
  · unfold readWithin
    rw [e2, memRead_withWriter _ _ hl]
    rcases memRead s.byteOffset s with ⟨_ | b, u⟩ <;> rfl
  · unfold readAcross
    rw [e2, memRead_withWriter _ _ hl]
    rcases hm : memRead s.byteOffset s with ⟨_ | b, u⟩
    · rfl
    · rw [hm] at hp
      simp only [e]
      have e3 : (u.withWriter w).advance (8 - s.bitOffset) = (u.advance (8 - s.bitOffset)).withWriter w := rfl
      have hu : (u.advance (8 - s.bitOffset)).platform.loopback = false := (congrArg Platform.loopback hp).trans hl
      rw [e3, readWhole_withWriter _ _ _ hu]
      have hq := (readWhole_onlyReader ((n - (8 - s.bitOffset)) / 8) (unconsumed b s.bitOffset)
        (u.advance (8 - s.bitOffset))).platform
      rcases hw : readWhole ((n - (8 - s.bitOffset)) / 8) (unconsumed b s.bitOffset)
        (u.advance (8 - s.bitOffset)) with ⟨_ | acc, v⟩
      · rfl
      · rw [hw] at hq
        exact readTail_withWriter _ _ _ ((congrArg Platform.loopback hq).trans hu)

theorem respond_withWriter (w : WriterView) (st : Status) (r : Data) (s : State) :
    (s.withWriter w).respond st r = (s.respond st r).withWriter w := by
  simp [State.withWriter, State.respond]

theorem raiseFatal_withWriter (w : WriterView) (c : FatalCause) (s : State) :
    (s.withWriter w).raiseFatal c = (s.raiseFatal c).withWriter w := by
  simp [State.withWriter, State.raiseFatal]

theorem readBody_withWriter (w : WriterView) (n : Nat) {s : State} (hl : s.platform.loopback = false) :
    readBody n (s.withWriter w) = (readBody n s).withWriter w := by
  unfold readBody
  have e : (s.withWriter w).rPos = s.rPos := rfl
  rw [e, readField_withWriter _ _ hl]
  split
  · exact raiseFatal_withWriter ..
  · rcases readField n s with ⟨_ | v, u⟩
    · exact raiseFatal_withWriter ..
    · exact respond_withWriter ..

theorem moveCursor_withWriter (w : WriterView) (new : Int) (r : Data) (s : State) :
    moveCursor new r (s.withWriter w) = (moveCursor new r s).withWriter w := by
  unfold moveCursor
  split
  · exact respond_withWriter w .ok r (s.setPos new)
  · exact raiseFatal_withWriter ..

theorem seekBody_withWriter (w : WriterView) (wh : Whence) (offset : Data) (s : State) :
    seekBody wh offset (s.withWriter w) = (seekBody wh offset s).withWriter w := by
  cases wh
  · exact moveCursor_withWriter ..
  · exact moveCursor_withWriter ..
  · exact raiseFatal_withWriter ..
  · exact raiseFatal_withWriter ..

end Sys2Proof.Machine
end

