-- ==== Sys2Proof/Tests/Slice0.lean ====
section
/-! SUPPORT. The model's own tests: ill-formed commands, words written out field by field from R61, single steps with the
results 95_test_vectors.md gives (V<n>), and a witness for the hypotheses of each statement. -/

namespace Sys2Proof.Tests

open Sys2Proof.Machine

/-! ### Small states -/

/-- After reset, the sink set to give the listed answers next. -/
def sinkGives (script : List SinkAnswer) : State := { State.reset with sinkScript := script }

/-- `u` pending bits in the cache. -/
def pendingBits (c : Byte) (u : BitVec 4) (s : State) : State := { s with wCache := c, wUsed := u }

/-- A sink with a close capability. -/
def closable (s : State) : State := { s with platform := { s.platform with sinkHasClose := true } }

/-- FLUSH_CLEARS_USED = false. -/
def keepsUsed (s : State) : State := { s with platform := { s.platform with flushClearsUsed := false } }

/-- LOOPBACK = true. -/
def looped (s : State) : State := { s with platform := { s.platform with loopback := true } }

/-- A source of the listed bytes, the cursor at `p`. -/
def sourceOf (bs : List Byte) (p : Data) : State :=
  { State.reset with source := Memory.ofBytes bs, rPos := p }

/-- The source of V23 to V36. -/
def vectorBytes : List Byte := [0xA5, 0x3C, 0xFF, 0x00, 0x96, 0x5A, 0x01, 0x80, 0xC3, 0x7E]

/-- A halted block. -/
def halted : State := State.reset.raiseFatal .badWhence

/-- The outcome is a next state with the property. -/
def after (o : Host.Outcome State Fault Refusal) (p : State → Bool) : Bool :=
  match o with
  | .next t => p t
  | .fault _ => false
  | .refused _ => false

/-- The outcome is the fault `stuck`. -/
def isStuck (o : Host.Outcome State Fault Refusal) : Bool :=
  match o with
  | .next _ => false
  | .fault .stuck => true
  | .refused _ => false

/-- The last response is this one. -/
def answered (t : State) (st : Status) (r : Data) : Bool :=
  decide (t.lastResponse = some (some { status := st, result := r }))

/-! ### Well-formedness (R65) -/

theorem test_writebits_65_ill_formed : (Instr.writebits 65 0).wf = false := by decide

theorem test_readbits_65_ill_formed : (Instr.readbits 65).wf = false := by decide

/-! ### Decoding: words from the fields of R61 (RSV2, WH, RSV1, N, RSV0, OP) -/

theorem test_decode_writebits : decode
    (0b00000000000000#14 ++ 0b00#2 ++ 0b0#1 ++ 0b1000000#7 ++ 0b0000#4 ++ 0b0001#4 : BitVec 32) 0x5 =
    .ok (.writebits 64 0x5) := by decide

theorem test_decode_flush : decode
    (0b00000000000000#14 ++ 0b00#2 ++ 0b0#1 ++ 0b0000000#7 ++ 0b0000#4 ++ 0b0010#4 : BitVec 32) 0x5 =
    .ok .flush := by decide

theorem test_decode_close : decode
    (0b00000000000000#14 ++ 0b00#2 ++ 0b0#1 ++ 0b0000000#7 ++ 0b0000#4 ++ 0b0011#4 : BitVec 32) 0x5 =
    .ok .close := by decide

theorem test_decode_readbits : decode
    (0b00000000000000#14 ++ 0b00#2 ++ 0b0#1 ++ 0b0010101#7 ++ 0b0000#4 ++ 0b1000#4 : BitVec 32) 0x5 =
    .ok (.readbits 21) := by decide

theorem test_decode_seek_current : decode
    (0b00000000000000#14 ++ 0b01#2 ++ 0b0#1 ++ 0b0000000#7 ++ 0b0000#4 ++ 0b1001#4 : BitVec 32) 0x5 =
    .ok (.seek .current 0x5) := by decide

theorem test_decode_seek_3 : decode
    (0b00000000000000#14 ++ 0b11#2 ++ 0b0#1 ++ 0b0000000#7 ++ 0b0000#4 ++ 0b1001#4 : BitVec 32) 0x5 =
    .ok (.seek .other3 0x5) := by decide

theorem test_decode_skip : decode
    (0b00000000000000#14 ++ 0b00#2 ++ 0b0#1 ++ 0b0000000#7 ++ 0b0000#4 ++ 0b1010#4 : BitVec 32) 0x5 =
    .ok (.skip 0x5) := by decide

theorem test_decode_tell : decode
    (0b00000000000000#14 ++ 0b00#2 ++ 0b0#1 ++ 0b0000000#7 ++ 0b0000#4 ++ 0b1011#4 : BitVec 32) 0x5 =
    .ok .tell := by decide

/-- The illegal words of V17. -/
theorem test_illegal_writer_words :
    ([0x00004101, 0x00000102, 0x00000004, 0x00000011, 0x00008002, 0x00040002, 0x00010301] : List Cmd).any legalWord =
      false := by decide

/-- The illegal words of V35 and V36. -/
theorem test_illegal_reader_words :
    ([0x0000010B, 0x0000000C, 0x00000109, 0x00004108] : List Cmd).any legalWord = false := by decide

theorem test_decode_illegal : decode 0x00004101 0 = .error .widthAbove64 ∧
    decode 0x00000102 0 = .error .unusedWidthNonZero ∧ decode 0x00000004 0 = .error .unassignedOpcode ∧
    decode 0x00000011 0 = .error .reservedNonZero ∧ decode 0x00010301 0 = .error .unusedWhenceNonZero := by decide

theorem test_table_word : decodeTableWord 32 0x00000D08 = some (.readbits 13) ∧
    decodeTableWord 32 0x00004101 = none ∧
    decodeTableWord 96 0x000000000000000500000301 = some (.writebits 3 0x5) := by decide

theorem test_fetch_word :
    after (step (State.reset.withFetchWord 32 0x0000000B)) (fun t => answered t .ok 0) = true := by decide

/-- The numbers of R120. -/
theorem test_codes : [Status.ok, .illegal, .writerUnusable, .ioErrWrite, .ioErrClose].map statusCode = [0, 1, 2, 3, 4] ∧
    [FatalCause.readFail, .badWhence, .range].map causeCode = [1, 2, 3] := by decide

/-! ### Single steps -/

/-- V1, step 2: one byte, no padding. -/
theorem test_writebits_V1 :
    after (exec (.writebits 5 0b11010) (pendingBits 0b101 3 (sinkGives [.ok])))
      (fun t => decide (t.accepted = [0xBA]) && decide (t.wUsed = 0) && answered t .ok 0) = true := by decide

/-- V14, step 2: the second write of the session fails. -/
theorem test_writebits_V14 :
    after (exec (.writebits 16 0xBCDE) (pendingBits 0xA 4 (sinkGives [.ok, .err])))
      (fun t => decide (t.accepted = [0xAB]) && decide (t.wUsed = 8) && decide (t.wCache = 0xCD) && t.wErr &&
        answered t .ioErrWrite 0) = true := by decide

/-- V2, step 2: padding; the stale bits do not matter. -/
theorem test_flush_V2 :
    after (exec .flush (pendingBits 0b11111110 3 (sinkGives [.ok])))
      (fun t => decide (t.accepted = [0xC0]) && decide (t.wUsed = 0) && answered t .ok 0) = true := by decide

/-- V15, step 2: the write fails. -/
theorem test_flush_V15 :
    after (exec .flush (pendingBits 0b101 3 (sinkGives [.err])))
      (fun t => decide (t.accepted = []) && decide (t.wUsed = 3) && decide (t.wCache = 0xA0) && t.wErr &&
        answered t .ioErrWrite 0) = true := by decide

/-- V20, step 2: flush, then close. -/
theorem test_close_V20 :
    after (exec .close (pendingBits 0b110 3 (closable (sinkGives [.ok, .ok]))))
      (fun t => decide (t.accepted = [0xC0]) && decide (t.closeAnswers = [.ok]) && answered t .ok 0) = true := by decide

/-- V22, step 2: the close fails and the writer stays usable. -/
theorem test_close_V22 :
    after (exec .close (pendingBits 0b110 3 (closable (sinkGives [.ok, .err]))))
      (fun t => decide (t.accepted = [0xC0]) && decide (t.wErr = false) && answered t .ioErrClose 0) = true := by decide

/-- V27, first row: 64 bits over nine bytes. -/
theorem test_readbits_V27 :
    after (exec (.readbits 64) (sourceOf vectorBytes 1))
      (fun t => answered t .ok 0x4A79FE012CB40301 && decide (t.rPos = 65) && decide (memReads t.bus = 9)) = true := by
  decide

/-- V29: the third read fails. -/
theorem test_readbits_V29 :
    after (exec (.readbits 20) (sourceOf vectorBytes 70))
      (fun t => t.bFatal && decide (t.bFatalCause = 1) && decide (t.rPos = 80) && decide (t.lastResponse = some none)) =
      true := by decide

/-- V30: backward. -/
theorem test_seek_V30 :
    after (exec (.seek .current 0xFFFFFFFFFFFFFFF7) (sourceOf vectorBytes 17))
      (fun t => answered t .ok 8 && decide (t.rPos = 8)) = true := by decide

/-- V32, fourth row: the exact sum is above POS_MAX. -/
theorem test_seek_V32 :
    after (exec (.seek .current 0x7FFFFFFFFFFFFFFF) (sourceOf vectorBytes 17))
      (fun t => t.bFatal && decide (t.bFatalCause = 3) && decide (t.rPos = 17)) = true := by decide

/-- V33, second row. -/
theorem test_skip_V33 :
    after (exec (.skip 0xFFFFFFFFFFFFFFF0) (sourceOf vectorBytes 16))
      (fun t => answered t .ok 0 && decide (t.rPos = 0)) = true := by decide

/-- V33, third row. -/
theorem test_skip_below_zero :
    after (exec (.skip 0xFFFFFFFFFFFFFFFF) (sourceOf vectorBytes 0))
      (fun t => t.bFatal && decide (t.bFatalCause = 3) && decide (t.rPos = 0)) = true := by decide

/-- V3, step 3. -/
theorem test_tell_V3 : after (exec .tell (sourceOf [0xFF, 0x00] 10)) (fun t => answered t .ok 10) = true := by decide

/-- V37, steps 3 and 5: stuck, an illegal word too. -/
theorem test_stuck_V37 : isStuck (exec .tell halted) = true ∧
    isStuck (step { halted with host := [.command 0x0000000C 0] }) = true := by decide

/-- V37: the block reset ends the halt. -/
theorem test_block_reset :
    after (step { halted with host := [.blockReset], rPos := 5, wUsed := 3, wErr := true })
      (fun t => decide (t.bFatal = false) && decide (t.bFatalCause = 0) && decide (t.rPos = 0) &&
        decide (t.wUsed = 0) && decide (t.wErr = false)) = true := by decide

/-- V16: the writer reset clears the error. -/
theorem test_writer_reset :
    after (step { State.reset with host := [.writerReset], wUsed := 3, wErr := true, rPos := 5 })
      (fun t => decide (t.wUsed = 0) && decide (t.wErr = false) && decide (t.rPos = 5)) = true := by decide

/-- Variant P1b, step 3: under LOOPBACK the pending nibble is not readable. -/
theorem test_loopback_P1b :
    after (exec (.readbits 4)
      { looped State.reset with bus := [.sinkWrite 0xAB .ok], wCache := 0xC, wUsed := 4, rPos := 8 })
      (fun t => t.bFatal && decide (t.bFatalCause = 1) && decide (t.rPos = 8)) = true := by decide

/-- The source's memory is in its canonical form, a byte written twice included. -/
theorem test_memory : Memory.ofBytes [0xA5, 0x3C] = [(0, 0xA5), (1, 0x3C)] ∧
    (Memory.ofBytes [0xA5, 0x3C]).write 0 0x11 = [(0, 0x11), (1, 0x3C)] ∧
    (Memory.ofBytes [0xA5]).write (2 ^ 60) 0x11 = [(0, 0xA5)] := by decide

/-! ### Witnesses: states and operands that meet a statement's hypotheses -/

theorem witness_EncodedCommandsDecodeBack :
    (Instr.writebits 64 0xFFFFFFFFFFFFFFFF).wf = true ∧ (Instr.writebits 0 0).wf = true ∧ Instr.flush.wf = true ∧
    Instr.close.wf = true ∧ (Instr.readbits 64).wf = true ∧ (Instr.seek .other3 0).wf = true ∧
    (Instr.skip 0).wf = true ∧ Instr.tell.wf = true := by decide

theorem witness_DecodedCommandsEncodeBack : decode 0x00004001 0x5 = .ok (.writebits 64 0x5) := by decide

theorem witness_LegalWordsAreTheTablesWords :
    legalWord 0x00020009 = true ∧ opcodeOf (cmdOp 0x0000000C) = none ∧ cmdRsv0 0x00000011 ≠ 0 ∧
    cmdRsv1 0x00008002 ≠ 0 ∧ cmdRsv2 0x00040002 ≠ 0 ∧
    (opcodeOf (cmdOp 0x0000010B) = some .tell ∧ opcodeUsesN .tell = false ∧ cmdN 0x0000010B ≠ 0) ∧
    (opcodeOf (cmdOp 0x00010301) = some .writebits ∧ opcodeUsesWh .writebits = false ∧ cmdWh 0x00010301 ≠ 0) ∧
    (opcodeUsesN .writebits = true ∧ 64 < (cmdN 0x00004101).toNat) := by decide

theorem witness_IgnoredDataDoesNotMatter :
    decode 0x00000002 0x7 = .ok .flush ∧ Instr.flush.usesData = false := by decide

theorem witness_WorkedEncodings : State.reset.bFatal = false := by decide

theorem witness_StepRunsTheDecodedCommand :
    ({ State.reset with host := [.command 0x00000301 0x5] } : State).host = .command 0x00000301 0x5 :: [] ∧
    decode 0x00000301 0x5 = .ok (.writebits 3 0x5) := by decide

theorem witness_IllegalWordsAnswerIllegal :
    (({ State.reset with host := [.command 0x00000102 0] } : State).host = .command 0x00000102 0 :: [] ∧
      State.reset.bFatal = false ∧ legalWord 0x00000102 = false) ∧
    (Instr.readbits 65).wf = false := by decide

theorem witness_HaltedBlockIsStuck :
    halted.bFatal = true ∧
    ({ halted with host := [.command 0x0000000B 0] } : State).host = .command 0x0000000B 0 :: [] := by decide

theorem witness_IdleBlockHoldsItsState : State.reset.host = [] := by decide

theorem witness_WriterResetEffect :
    ({ halted with host := [.writerReset], wErr := true } : State).host = .writerReset :: [] := by decide

theorem witness_ReaderResetEffect :
    ({ halted with host := [.readerReset], rPos := 5 } : State).host = .readerReset :: [] := by decide

/-- The second clause at a step that leaves the halt and at one that does not. -/
theorem witness_BlockResetIsTheOnlyWayOutOfTheHalt :
    ({ halted with host := [.blockReset] } : State).host = .blockReset :: [] ∧
    ({ halted with host := [.blockReset] } : State).bFatal = true ∧
    after (step { halted with host := [.blockReset] }) (fun t => decide (t.bFatal = false)) = true ∧
    after (step { halted with host := [.writerReset] }) (fun t => t.bFatal) = true := by decide

theorem witness_StepsKeepTheInvariant :
    State.reset.Inv ∧ (sourceOf vectorBytes 17).Inv ∧
    ({ pendingBits 0xCD 8 State.reset with wErr := true } : State).Inv ∧
    after (step { sourceOf vectorBytes 17 with host := [.command 0x0000000B 0] }) (fun _ => true) = true := by decide

/-- No byte, one byte and the eight bytes of V12. -/
theorem witness_WritebitsEmitsTheJoinedString :
    let s := pendingBits 0x7F 7 (sinkGives (List.replicate 8 .ok))
    (s.WriterReady ∧ (64 : Nat) ≤ 64 ∧ ∀ k < emitCount s 64, s.answerAt k = .ok) ∧
    (State.reset.WriterReady ∧ ∀ k < emitCount State.reset 7, State.reset.answerAt k = .ok) ∧
    (∀ k < emitCount s 1, s.answerAt k = .ok) := by decide

/-- The first write fails, and the last of eight does. -/
theorem witness_WritebitsStopsAtTheFirstFailedWrite :
    (let s := pendingBits 0x7F 7 (sinkGives [.err])
     s.WriterReady ∧ 0 < emitCount s 64 ∧ (∀ k < 0, s.answerAt k = .ok) ∧ s.answerAt 0 = .err) ∧
    (let s := pendingBits 0x7F 7 (sinkGives (List.replicate 7 .ok ++ [.err]))
     s.WriterReady ∧ 7 < emitCount s 64 ∧ (∀ k < 7, s.answerAt k = .ok) ∧ s.answerAt 7 = .err) := by decide

theorem witness_ZeroWidthWriteIsANoOp : State.reset.bFatal = false ∧ State.reset.wErr = false := by decide

theorem witness_WritebitsIgnoresHighBits :
    (0xFFFFFFFFFFFFFFF3 : Data).toNat % 2 ^ 4 = (0x3 : Data).toNat % 2 ^ 4 := by decide

theorem witness_WritebitsExtendsTheWriterStream :
    let s := pendingBits 0x5 3 (sinkGives [.ok, .ok])
    s.WriterReady ∧ (13 : Nat) ≤ 64 ∧ ∀ k < emitCount s 13, s.answerAt k = .ok := by decide

theorem witness_WriteSessionSpellsItsFields :
    let s := sinkGives [.ok, .ok, .ok]
    let fs : List (Nat × Data) := [(3, 0b101), (0, 7), (13, 0x1ABC), (1, 1)]
    s.bFatal = false ∧ s.wErr = false ∧ s.wUsed = 0 ∧ (∀ f ∈ fs, f.1 ≤ 64) ∧
    ∀ k < (totalBits fs + 7) / 8, s.answerAt k = .ok := by decide

theorem witness_FlushWithNothingPending :
    State.reset.bFatal = false ∧ State.reset.wErr = false ∧ State.reset.wUsed = 0 := by decide

/-- One pending bit, and seven. -/
theorem witness_FlushEmitsThePaddedByte :
    (let s := pendingBits 0x1 1 (sinkGives [.ok])
     s.WriterReady ∧ s.wUsed ≠ 0 ∧ s.answerAt 0 = .ok) ∧
    (let s := pendingBits 0x25 7 (keepsUsed (sinkGives [.ok]))
     s.WriterReady ∧ s.wUsed ≠ 0 ∧ s.answerAt 0 = .ok) := by decide

theorem witness_FlushFailureIsClosesToo :
    let s := pendingBits 0b101 3 (sinkGives [.err])
    s.WriterReady ∧ s.wUsed ≠ 0 ∧ s.answerAt 0 = .err := by decide

/-- Each parameter value; u = 4, a second flush, and a write of 8 - u bits from the state the first flush leaves. -/
theorem witness_FlushAgainAndWriteAfterFlush :
    (let s := pendingBits 0b10111 5 (sinkGives [.ok])
     s.WriterReady ∧ s.wUsed ≠ 0 ∧ s.answerAt 0 = .ok ∧ s.platform.flushClearsUsed = true) ∧
    (let s := pendingBits 0b1011 4 (keepsUsed (sinkGives [.ok, .ok]))
     s.WriterReady ∧ s.wUsed ≠ 0 ∧ s.answerAt 0 = .ok ∧ s.platform.flushClearsUsed = false ∧
     s.wUsed.toNat ≤ 4 ∧ s.answerAt 1 = .ok ∧ 8 - s.wUsed.toNat ≤ 4 ∧
     after (exec .flush s) (fun t => decide (∀ k < emitCount t 4, t.answerAt k = .ok)) = true) := by decide

theorem witness_CloseWithoutCapabilityIsFlush : State.reset.platform.sinkHasClose = false := by decide

/-- With bits pending, and with none; the close then succeeds or fails. -/
theorem witness_CloseFlushesThenCloses :
    (let s := pendingBits 0b110 3 (closable (sinkGives [.ok, .err]))
     s.WriterReady ∧ s.platform.sinkHasClose = true ∧ (s.wUsed ≠ 0 → s.answerAt 0 = .ok)) ∧
    (let s := closable (sinkGives [.ok])
     s.WriterReady ∧ s.platform.sinkHasClose = true ∧ (s.wUsed ≠ 0 → s.answerAt 0 = .ok)) := by decide

theorem witness_CloseAgain :
    (State.reset.wUsed = 0 ∧ after (exec .close State.reset) (fun _ => true) = true) ∧
    (let s := pendingBits 0b110 3 (sinkGives [.ok])
     s.platform.flushClearsUsed = true ∧
     after (exec .close s) (fun t => answered t .ok 0 && after (exec .close t) (fun _ => true)) = true) ∧
    (let s := pendingBits 0b110 3 (keepsUsed (sinkGives [.ok, .ok]))
     s.WriterReady ∧ s.platform.flushClearsUsed = false ∧ s.wUsed ≠ 0 ∧
     after (exec .close s) (fun t => decide (t.wErr = false) && decide (t.answerAt 0 = .ok)) = true) := by decide

theorem witness_PoisonedWriterAnswersUnusable :
    (let s := { State.reset with wErr := true }
     Instr.flush.isWriter = true ∧ Instr.flush.wf = true ∧ s.bFatal = false ∧ s.wErr = true) ∧
    ({ State.reset with wErr := true, host := [.writerReset] } : State).host = .writerReset :: [] ∧
    ({ State.reset with wErr := true, host := [.blockReset] } : State).host = .blockReset :: [] := by decide

theorem witness_WriterCommandFrame :
    Instr.flush.isWriter = true ∧ State.reset.platform.loopback = false ∧
    after (exec .flush (pendingBits 0b110 3 (sinkGives [.ok]))) (fun _ => true) = true := by decide

/-- A command that stores a byte, an address below it and the address after it. -/
theorem witness_OtherBytesReadAsBefore :
    let s := looped (pendingBits 0b110 3 { sinkGives [.ok] with bus := [.sinkWrite 0xAB .ok] })
    s.usedLegal = true ∧ after (exec .flush s) (fun t => decide (t.accepted.length = 2)) = true ∧
    0 < s.accepted.length ∧ s.accepted.length + storedCount .flush s ≤ 2 := by decide

/-- Within one byte, over nine bytes, and of width 0. -/
theorem witness_ReadbitsReturnsTheField :
    (let s := sourceOf vectorBytes 15
     s.ReaderReady ∧ (64 : Nat) ≤ 64 ∧ s.rPos.toInt + (64 : Nat) ≤ Config.posMax ∧
     ∀ a ∈ readAddrs s.rPos.toNat 64, (s.sourceAt a).isSome = true) ∧
    (let s := sourceOf vectorBytes 3
     s.ReaderReady ∧ s.rPos.toInt + (5 : Nat) ≤ Config.posMax ∧
     (∀ a ∈ readAddrs s.rPos.toNat 5, (s.sourceAt a).isSome = true) ∧
     ∀ a ∈ readAddrs s.rPos.toNat 0, (s.sourceAt a).isSome = true) := by decide

/-- The first read fails (i = 0), and the third does (V29). -/
theorem witness_ReadbitsHaltsAtTheFirstFailedRead :
    (let s := sourceOf vectorBytes 80
     s.ReaderReady ∧ s.rPos.toInt + (0 : Nat) ≤ Config.posMax ∧ 0 < readCount s.rPos.toNat 0 ∧
     (∀ j < 0, (s.sourceAt (s.rPos.toNat / 8 + j)).isSome = true) ∧ s.sourceAt (s.rPos.toNat / 8 + 0) = none) ∧
    (let s := sourceOf vectorBytes 70
     s.ReaderReady ∧ (20 : Nat) ≤ 64 ∧ s.rPos.toInt + (20 : Nat) ≤ Config.posMax ∧ 2 < readCount s.rPos.toNat 20 ∧
     (∀ j < 2, (s.sourceAt (s.rPos.toNat / 8 + j)).isSome = true) ∧ s.sourceAt (s.rPos.toNat / 8 + 2) = none) := by
  decide

theorem witness_ReadbitsPastTheEndHaltsBeforeReading :
    let s := sourceOf vectorBytes 0x7FFFFFFFFFFFFFFF
    s.bFatal = false ∧ (1 : Nat) ≤ 64 ∧ Config.posMax < s.rPos.toInt + (1 : Nat) := by decide

theorem witness_ZeroWidthReadReadsOneByte :
    let s := sourceOf vectorBytes 79
    s.ReaderReady ∧ (s.sourceAt (s.rPos.toNat / 8)).isSome = true := by decide

theorem witness_AccumulatorNeverOverflows :
    (readField 64 (sourceOf vectorBytes 7)).1 = some 0x9E7F804B2D00C061 := by decide

theorem witness_FirstByteMaskTable : unconsumed 0xA5 7 = 1 ∧ unconsumed 0xA5 0 = 0xA5 := by decide

/-- The ends of the range: 0 and POS_MAX. -/
theorem witness_SeekSetsAndReturnsTheCursor :
    State.reset.bFatal = false ∧ 0 ≤ (0 : Data).toInt ∧ 0 ≤ (0x7FFFFFFFFFFFFFFF : Data).toInt ∧
    (let s := sourceOf vectorBytes 17
     0 ≤ s.rPos.toInt + (0xFFFFFFFFFFFFFFEF : Data).toInt ∧
     s.rPos.toInt + (0x7FFFFFFFFFFFFFEE : Data).toInt ≤ Config.posMax) := by decide

theorem witness_SeekThenReadReadsThere :
    let s := sourceOf vectorBytes 3
    s.ReaderReady ∧ 0 ≤ s.rPos.toInt + (2 : Data).toInt ∧ s.rPos.toInt + (2 : Data).toInt ≤ Config.posMax ∧
    after (exec (.seek .current 2) s) (fun t => decide (t.rPos.toInt + (5 : Nat) ≤ Config.posMax)) = true ∧
    ∀ a ∈ readAddrs (s.rPos.toInt + (2 : Data).toInt).toNat 5, (s.sourceAt a).isSome = true := by decide

theorem witness_UnsupportedWhenceHalts : State.reset.bFatal = false := by decide

/-- The positions just outside the range. -/
theorem witness_CursorOutOfRangeHalts :
    State.reset.bFatal = false ∧ (0xFFFFFFFFFFFFFFFF : Data).toInt < 0 ∧
    (let s := sourceOf vectorBytes 17
     s.rPos.toInt + (0xFFFFFFFFFFFFFFEE : Data).toInt < 0 ∧
     Config.posMax < s.rPos.toInt + (0x7FFFFFFFFFFFFFEF : Data).toInt) := by decide

theorem witness_SkipMovesTheCursor :
    let s := sourceOf vectorBytes 3
    s.bFatal = false ∧ 0 ≤ s.rPos.toInt + (13 : Data).toInt ∧
    s.rPos.toInt + (13 : Data).toInt ≤ Config.posMax := by decide

/-- A skip that moves the cursor, and one that halts. -/
theorem witness_SkipAgreesWithRelativeSeek :
    let s := sourceOf vectorBytes 16
    s.bFatal = false ∧ after (exec (.skip 7) s) (fun t => decide (t.bFatal = false)) = true ∧
    after (exec (.skip 0xFFFFFFFFFFFFFFEF) s) (fun t => t.bFatal) = true := by decide

theorem witness_TellReturnsTheCursor :
    (sourceOf vectorBytes 0x7FFFFFFFFFFFFFFF).bFatal = false ∧
    (sourceOf vectorBytes 0x7FFFFFFFFFFFFFFF).posLegal = true := by decide

theorem witness_ReaderCommandFrame :
    (Instr.readbits 4).isWriter = false ∧
    after (exec (.readbits 4) (sourceOf vectorBytes 6)) (fun _ => true) = true := by decide

/-- Each of the three causes. -/
theorem witness_FatalEntry :
    let s := sourceOf vectorBytes 80
    s.bFatal = false ∧ after (exec (.readbits 1) s) (fun t => t.bFatal) = true ∧
    after (exec (.seek .other2 0) s) (fun t => t.bFatal) = true ∧
    after (exec (.skip 0x8000000000000000) s) (fun t => t.bFatal) = true := by decide

/-- A command for each status, and one without a response. -/
theorem witness_OneResponsePerCommand :
    after (exec .tell State.reset) (fun t => answered t .ok 0) = true ∧
    after (exec (.readbits 65) State.reset) (fun t => answered t .illegal 0) = true ∧
    after (exec .flush { State.reset with wErr := true }) (fun t => answered t .writerUnusable 0) = true ∧
    after (exec .flush (pendingBits 1 1 (sinkGives [.err]))) (fun t => answered t .ioErrWrite 0) = true ∧
    after (exec .close (closable (sinkGives [.err]))) (fun t => answered t .ioErrClose 0) = true ∧
    after (exec (.readbits 1) State.reset) (fun t => decide (t.lastResponse = some none)) = true := by decide

theorem witness_ParametersNeverChange :
    after (step { sourceOf vectorBytes 0 with host := [.command 0x00000408 0] }) (fun _ => true) = true := by decide

theorem witness_TransactionsAreNeverUndone :
    (sourceOf vectorBytes 0).sourceAt 1 = some 0x3C ∧
    after (step { sourceOf vectorBytes 0 with host := [.command 0x00000408 0] }) (fun _ => true) = true := by decide

theorem witness_TransactionBounds :
    let s := pendingBits 0x7F 7 (sinkGives (List.replicate 8 .ok))
    s.usedLegal = true ∧ after (exec (.writebits 64 0) s) (fun t => decide (sinkWrites t.bus = 8)) = true := by decide

theorem witness_LoopbackShowsAcceptedBytesOnly :
    let s := { looped State.reset with bus := [.sinkWrite 0xAB .ok], rPos := 8 }
    s.platform.loopback = true ∧ (0 : Nat) < 2 ^ 60 ∧ s.ReaderReady ∧ (4 : Nat) ≤ 64 ∧
    s.rPos.toInt + (4 : Nat) ≤ Config.posMax ∧ s.accepted.length ≤ s.rPos.toNat / 8 ∧
    State.reset.platform.loopback = false := by decide

/-- Three pending bits under different stale bits (V18). -/
theorem witness_StaleBitsAreNeverSeen :
    StaleEq (pendingBits 0b00000101 3 State.reset) (pendingBits 0b11111101 3 State.reset) := by decide

theorem witness_WriterAndReaderCommandsCommute :
    let s := { sourceOf vectorBytes 3 with sinkScript := [.ok], wCache := 0b101, wUsed := 3 }
    (Instr.writebits 5 0).isWriter = true ∧ (Instr.readbits 5).isWriter = false ∧ s.platform.loopback = false ∧
    after (exec (.writebits 5 0) s) (fun s1 => after (exec (.readbits 5) s1)
      (fun s2 => decide (s2.bFatal = false))) = true := by decide

/-- Under LOOPBACK, reading the byte the sink holds while the writer emits the next. -/
theorem witness_ReaderThenWriterCommandsCommute :
    let s := looped (pendingBits 0b101 3 { sinkGives [.ok] with bus := [.sinkWrite 0xAB .ok] })
    (Instr.writebits 5 0).isWriter = true ∧ (Instr.readbits 5).isWriter = false ∧
    after (exec (.readbits 5) s) (fun s3 => decide (s3.bFatal = false) &&
      after (exec (.writebits 5 0) s3) (fun s4 => decide (s4.accepted.length = 2))) = true := by decide

theorem witness_RoundTripThroughLoopback :
    let s := looped { sinkGives [.ok, .ok, .ok] with bus := [.sinkWrite 0xAB .ok], rPos := 8 }
    let fs : List (Nat × Data) := [(3, 0b101), (13, 0x1ABC), (1, 1)]
    s.bFatal = false ∧ s.wErr = false ∧ s.wUsed = 0 ∧ s.platform.loopback = true ∧
    s.rPos.toNat = 8 * s.accepted.length ∧ (∀ f ∈ fs, 1 ≤ f.1 ∧ f.1 ≤ 64) ∧
    s.rPos.toNat + totalBits fs < 2 ^ 63 ∧ ∀ k < (totalBits fs + 7) / 8, s.answerAt k = .ok := by decide

end Sys2Proof.Tests
end

section
/-! The family of 00_scope.md: a step runs one event of the host's (R7, R21), and what a writer command leaves unchanged
(R2, R89, R132). -/

namespace Sys2Proof.Machine

/-! ### A step -/

/-- A step performs the host's next event, at the state with that event taken (R21). -/
theorem step_of_host_cons {s : State} {e : HostEvent} {rest : List HostEvent} (h : s.host = e :: rest) :
    step s = performEvent e (s.withHost rest) := by
  rw [step, stepHost, h]

/-- A presented word that decodes performs the command it stands for (R7, R60). -/
theorem present_of_decode_ok {c : Cmd} {d : Data} {i : Instr} (h : decode c d = .ok i) (s : State) :
    present c d s = exec i s := by
  rw [present, h]

/-- Settles O6: the event taken is the command, and its word decodes to `i`. -/
theorem stepRunsTheDecodedCommand : Obligations.StepRunsTheDecodedCommand := by
  intro s c d rest i hhost hdec
  calc step s = present c d (s.withHost rest) := step_of_host_cons hhost
    _ = exec i (s.withHost rest) := present_of_decode_ok hdec _

/-! ### A writer command's frame -/

theorem memReads_append (ts us : List Transaction) : memReads (ts ++ us) = memReads ts + memReads us :=
  List.countP_append

/-- Transactions with the sink are no source reads. -/
theorem memReads_of_sinkOps {ts : List Transaction} (h : ∀ x ∈ ts, isSinkOp x = true) : memReads ts = 0 := by
  refine List.countP_eq_zero.mpr fun x hx => ?_
  cases x with
  | sinkWrite v a => simp
  | sinkClose a => simp
  | memRead a b => cases h _ hx

theorem OnlyWriter.memReads {s t : State} (h : OnlyWriter s t) : memReads t.bus = memReads s.bus := by
  obtain ⟨ts, hts, hsink⟩ := h.bus
  rw [hts, memReads_append, memReads_of_sinkOps hsink, Nat.add_zero]

/-- Settles O29: up to its response a writer command moves only the writer and the sink (`exec_writer_next`), and responding
adds the one response. -/
theorem writerCommandFrame : Obligations.WriterCommandFrame := by
  intro i s t hi hexec
  obtain ⟨-, u, st, hu, rfl⟩ := exec_writer_next hi hexec
  have hresp : (u.respond st 0).responses = s.responses ++ [some { status := st, result := 0 }] := by
    rw [respond_responses, hu.responses]
  exact ⟨hu.rPos, hu.bFatal, hu.bFatalCause, hu.platform, hu.source, hu.host, hu.memReads, hu.accepted,
    ⟨_, hresp⟩, hu.sourceAt⟩

end Sys2Proof.Machine
end

section
/-! The invariant of the machine (R23, R25, R27, R29): what each kind of step leaves of the registers' ranges. -/

namespace Sys2Proof.Machine

/-! ### The registers' ranges -/

theorem usedLegal_iff (s : State) :
    s.usedLegal = true ↔ s.wUsed.toNat ≤ 7 ∨ (s.wUsed = 8 ∧ s.wErr = true) := by
  simp [State.usedLegal]

theorem posLegal_iff (s : State) : s.posLegal = true ↔ s.rPos.toNat < 2 ^ 63 := by
  have htop : Config.posMax = 2 ^ 63 - 1 := rfl
  have hpos := BitVec.toInt_eq_toNat_cond s.rPos
  simp only [State.posLegal, cursorLegal, Bool.and_eq_true, decide_eq_true_eq]
  split at hpos <;> omega

theorem causeLegal_iff (s : State) :
    s.causeLegal = true ↔ (s.bFatal = true ↔ s.bFatalCause ≠ 0) := by
  simp only [State.causeLegal, decide_eq_true_eq]

theorem causeCode_ne_zero (c : FatalCause) : causeCode c ≠ 0 := by
  cases c <;> decide

/-- Settles O13: every register is 0 after a reset and the source is empty. -/
theorem resetMeetsTheInvariant : Obligations.ResetMeetsTheInvariant :=
  ⟨by decide, by decide, by decide, reset_source_wf⟩

/-! ### `W.used` through the writer's bodies -/

theorem chunkSize_le (rem : Nat) {used : Nat} (h : used ≤ 8) : used + chunkSize rem used ≤ 8 := by
  have hc : chunkSize rem used = min rem (8 - used) := rfl
  omega

/-- The loop of WRITEBITS ends with `W.used` below 8, or at 8 in a poisoned writer (R23). -/
theorem writeLoop_usedLegal {v fuel rem : Nat} {s : State} (hu : s.wUsed.toNat ≤ 7) :
    (writeLoop v fuel rem s).2.usedLegal = true := by
  induction fuel generalizing rem s with
  | zero => exact (usedLegal_iff s).mpr (.inl hu)
  | succ fuel ih =>
    unfold writeLoop
    split
    · exact (usedLegal_iff s).mpr (.inl hu)
    · have hused := shiftIn_used (chunkBits v rem (chunkSize rem s.wUsed.toNat))
        (chunkSize_le rem (by omega : s.wUsed.toNat ≤ 8))
      have hle := chunkSize_le rem (by omega : s.wUsed.toNat ≤ 8)
      simp only
      generalize s.shiftIn _ _ = s1 at hused ⊢
      split
      next h8 =>
        rcases emitCache_cases s1 with ⟨-, he⟩ | ⟨-, he⟩ <;> rw [he]
        · exact ih (Nat.zero_le 7)
        · exact (usedLegal_iff _).mpr (.inr ⟨h8, rfl⟩)
      next h8 =>
        have hne : s1.wUsed.toNat ≠ 8 := fun h => h8 (BitVec.eq_of_toNat_eq h)
        exact ih (by omega)

/-- FLUSH's body keeps `W.used` or clears it, and poisons the writer at most. -/
theorem flushBody_usedLegal {s : State} (h : s.usedLegal = true) :
    (flushBody s).2.usedLegal = true := by
  rcases flushBody_cases s with ⟨-, hb⟩ | ⟨-, -, hb⟩ | ⟨-, -, hb⟩ <;> rw [hb]
  · exact h
  · cases s.platform.flushClearsUsed
    · exact h
    · rfl
  · exact (usedLegal_iff _).mpr (((usedLegal_iff s).mp h).imp_right fun ⟨h8, _⟩ => ⟨h8, rfl⟩)

/-- CLOSE's body after a successful flush: a close of the sink at most, which touches no register. -/
theorem closeBody_of_flush_ok {s t : State} (h : flushBody s = (.ok, t)) :
    closeBody s = (.ok, t) ∨
      ∃ st, closeBody s = (st, (t.answersDrawn 1).record (.sinkClose (t.answerAt 0))) := by
  cases hc : t.platform.sinkHasClose
  · exact .inl (closeBody_no_close h hc)
  · exact .inr ⟨_, closeBody_close h hc⟩

theorem closeBody_usedLegal {s : State} (h : s.usedLegal = true) :
    (closeBody s).2.usedLegal = true := by
  have hf := flushBody_usedLegal h
  have closes : ∀ t, flushBody s = (.ok, t) → (closeBody s).2.usedLegal = true := by
    intro t ht
    rw [ht] at hf
    rcases closeBody_of_flush_ok ht with hb | ⟨st, hb⟩ <;> rw [hb] <;> exact hf
  rcases flushBody_cases s with ⟨-, hb⟩ | ⟨-, -, hb⟩ | ⟨-, -, hb⟩
  · exact closes _ hb
  · exact closes _ hb
  · rw [closeBody_flush_fails hb]
    rwa [hb] at hf

/-! ### `R.pos` through the reader's bodies -/

/-- A failed READBITS has not passed the end of its field (R106). -/
theorem passedBefore_le {p n i : Nat} (h : i < readCount p n) : passedBefore p i ≤ n := by
  unfold readCount at h
  unfold passedBefore
  split <;> omega

theorem afterReads_posLegal {s : State} {k : Nat} (l : List Nat) (h : s.rPos.toNat + k < 2 ^ 63) :
    (s.afterReads k l).posLegal = true := by
  rw [posLegal_iff, afterReads_pos l (by omega)]
  exact h

/-- READBITS's reads, its range check passed, leave the cursor in its range (R25, R101, R106). -/
theorem readField_posLegal {n : Nat} {s : State} (hs : s.posLegal = true)
    (hn : s.rPos.toInt + n ≤ Config.posMax) : (readField n s).2.posLegal = true := by
  have hp := (posLegal_iff s).mp hs
  have hpos : s.rPos.toInt = s.rPos.toNat := BitVec.toInt_eq_toNat_of_lt (by omega)
  have htop : Config.posMax = 2 ^ 63 - 1 := rfl
  rcases readField_cases (n := n) (s := s) (by omega) with ⟨-, hr⟩ | ⟨i, hi, -, -, hr⟩ <;> rw [hr]
  · exact afterReads_posLegal _ (by omega)
  · have hle := passedBefore_le hi
    exact afterReads_posLegal _ (by omega)

theorem setPos_posLegal {p : Int} (s : State) (h : cursorLegal p = true) :
    (s.setPos p).posLegal = true := by
  have htop : Config.posMax = 2 ^ 63 - 1 := rfl
  simp only [cursorLegal, Bool.and_eq_true, decide_eq_true_eq] at h
  rw [posLegal_iff, setPos_rPos, BitVec.toNat_ofInt]
  omega

/-! ### How a command ends -/

/-- Every next state of a writer command: only the writer has moved, `W.used` within its range, then one response with
RESULT 0; SinkClose's failure is told by CLOSE alone (R120). -/
theorem exec_writer_ends {i : Instr} {s t : State} (hi : i.isWriter = true) (h : exec i s = .next t) :
    s.bFatal = false ∧ ∃ u st, OnlyWriter s u ∧ (s.usedLegal = true → u.usedLegal = true) ∧
      (st = .ioErrClose → i = .close) ∧ t = u.respond st 0 := by
  have key : ∀ {legal : Bool} {b : State → Status × State}, OnlyWriter s (b s).2 →
      (s.wErr = false → s.usedLegal = true → (b s).2.usedLegal = true) →
      ((b s).1 = .ioErrClose → i = .close) →
      writerEntry legal (fun s => (b s).2.respond (b s).1 0) s = .next t →
      s.bFatal = false ∧ ∃ u st, OnlyWriter s u ∧ (s.usedLegal = true → u.usedLegal = true) ∧
        (st = .ioErrClose → i = .close) ∧ t = u.respond st 0 := by
    intro legal b honly hused hst h
    obtain ⟨hf, ⟨-, rfl⟩ | ⟨-, -, rfl⟩ | ⟨-, he, rfl⟩⟩ := writerEntry_next h
    · exact ⟨hf, s, .illegal, OnlyWriter.refl s, id, nofun, rfl⟩
    · exact ⟨hf, s, .writerUnusable, OnlyWriter.refl s, id, nofun, rfl⟩
    · exact ⟨hf, _, _, honly, hused he, hst, rfl⟩
  cases i with
  | writebits n v =>
    refine key (writeLoop_onlyWriter _ _ _ _) (fun he hu => writeLoop_usedLegal ?_) ?_ h
    · rcases (usedLegal_iff s).mp hu with hu | ⟨-, he'⟩
      · exact hu
      · simp [he] at he'
    · rcases writeLoop_status v.toNat (n + 1) n s with hst | hst <;> simp [hst]
  | flush =>
    refine key (flushBody_onlyWriter s) (fun _ => flushBody_usedLegal) ?_ h
    rcases flushBody_cases s with ⟨-, hb⟩ | ⟨-, -, hb⟩ | ⟨-, -, hb⟩ <;> simp [hb]
  | close => exact key (closeBody_onlyWriter s) (fun _ => closeBody_usedLegal) (fun _ => rfl) h
  | readbits n => cases hi
  | seek wh o => cases hi
  | skip o => cases hi
  | tell => cases hi

/-- The ways a reader command can end, its reads made and its cursor moved: ILLEGAL with RESULT 0, OK with a RESULT that is 0
in SKIP, or FATAL (R120). -/
inductive ReaderEnd (i : Instr) (u : State) : State → Prop where
  | illegal : ReaderEnd i u (u.respond .illegal 0)
  | answered (v : Data) (hskip : ∀ o, i = .skip o → v = 0) : ReaderEnd i u (u.respond .ok v)
  | halted (c : FatalCause) : ReaderEnd i u (u.raiseFatal c)

/-- SEEK's and SKIP's move of the cursor. -/
theorem moveCursor_ends {i : Instr} (new : Int) {v : Data} (s : State) (hskip : ∀ o, i = .skip o → v = 0) :
    ∃ u, OnlyReader s u ∧ (s.posLegal = true → u.posLegal = true) ∧ ReaderEnd i u (moveCursor new v s) := by
  rcases moveCursor_cases new v s with ⟨hnew, hm⟩ | ⟨-, hm⟩ <;> rw [hm]
  · exact ⟨_, setPos_onlyReader new s, fun _ => setPos_posLegal s hnew, .answered v hskip⟩
  · exact ⟨s, OnlyReader.refl s, id, .halted _⟩

/-- Every next state of a reader command: only the cursor has moved, within its range, and then the command ends. -/
theorem exec_reader_ends {i : Instr} {s t : State} (hi : i.isWriter = false) (h : exec i s = .next t) :
    s.bFatal = false ∧
      ∃ u, OnlyReader s u ∧ (s.posLegal = true → u.posLegal = true) ∧ ReaderEnd i u t := by
  have key : ∀ {legal : Bool} {b : State → State},
      (∃ u, OnlyReader s u ∧ (s.posLegal = true → u.posLegal = true) ∧ ReaderEnd i u (b s)) →
      readerEntry legal b s = .next t →
      s.bFatal = false ∧
        ∃ u, OnlyReader s u ∧ (s.posLegal = true → u.posLegal = true) ∧ ReaderEnd i u t := by
    intro legal b hb h
    obtain ⟨hf, ⟨-, rfl⟩ | ⟨-, rfl⟩⟩ := readerEntry_next h
    · exact ⟨hf, s, OnlyReader.refl s, id, .illegal⟩
    · exact ⟨hf, hb⟩
  cases i with
  | writebits n v => cases hi
  | flush => cases hi
  | close => cases hi
  | readbits n =>
    refine key ?_ h
    have honly := readField_onlyReader n s
    rcases readBody_cases n s with ⟨-, hb⟩ | ⟨hn, v, u, hr, hb⟩ | ⟨hn, u, hr, hb⟩ <;> rw [hb]
    · exact ⟨s, OnlyReader.refl s, id, .halted _⟩
    · have hpos := fun hs => readField_posLegal hs hn
      rw [hr] at honly hpos
      exact ⟨u, honly, hpos, .answered _ nofun⟩
    · have hpos := fun hs => readField_posLegal hs hn
      rw [hr] at honly hpos
      exact ⟨u, honly, hpos, .halted _⟩
  | seek wh o =>
    refine key ?_ h
    unfold seekBody
    cases seekTarget wh o s with
    | none => exact ⟨s, OnlyReader.refl s, id, .halted _⟩
    | some new => exact moveCursor_ends new s nofun
  | skip o =>
    refine key ?_ h
    exact moveCursor_ends (skipTarget o s) s fun _ _ => rfl
  | tell =>
    refine key ?_ h
    exact ⟨s, OnlyReader.refl s, id, .answered _ nofun⟩

/-- A command changes no parameter of the platform and no contents of the source (R33, R55). -/
theorem exec_keeps_binding {i : Instr} {s t : State} (h : exec i s = .next t) :
    t.platform = s.platform ∧ t.source = s.source := by
  cases hi : i.isWriter with
  | true =>
    obtain ⟨-, u, st, hu, rfl⟩ := exec_writer_next hi h
    exact ⟨hu.platform, hu.source⟩
  | false =>
    obtain ⟨-, u, hu, ⟨st, r, rfl⟩ | ⟨c, rfl⟩⟩ := exec_reader_next hi h <;>
      exact ⟨hu.platform, hu.source⟩

/-- A command keeps the invariant. -/
theorem exec_inv {i : Instr} {s t : State} (hs : s.Inv) (h : exec i s = .next t) : t.Inv := by
  obtain ⟨hused, hpos, hcause, hsrc⟩ := hs
  have hsrc' : t.source.wf := (exec_keeps_binding h).2 ▸ hsrc
  cases hi : i.isWriter with
  | true =>
    obtain ⟨-, u, st, hu, hkeep, -, rfl⟩ := exec_writer_ends hi h
    refine ⟨hkeep hused, (posLegal_iff _).mpr ?_, (causeLegal_iff _).mpr ?_, hsrc'⟩
    · exact hu.rPos ▸ (posLegal_iff s).mp hpos
    · rw [respond_bFatal, respond_bFatalCause, hu.bFatal, hu.bFatalCause]
      exact (causeLegal_iff s).mp hcause
  | false =>
    obtain ⟨-, u, hu, hkeep, hend⟩ := exec_reader_ends hi h
    have hused' : u.usedLegal = true := by
      rw [usedLegal_iff, hu.wUsed, hu.wErr]
      exact (usedLegal_iff s).mp hused
    have hcause' : u.causeLegal = true := by
      rw [causeLegal_iff, hu.bFatal, hu.bFatalCause]
      exact (causeLegal_iff s).mp hcause
    cases hend with
    | illegal => exact ⟨hused', hkeep hpos, hcause', hsrc'⟩
    | answered v => exact ⟨hused', hkeep hpos, hcause', hsrc'⟩
    | halted c =>
      exact ⟨hused', hkeep hpos,
        (causeLegal_iff _).mpr (iff_of_true rfl (causeCode_ne_zero c)), hsrc'⟩

/-! ### A step -/

/-- The ways a step can answer a next state: the block is idle, or one event of the host's is taken and is a command, an illegal
word, or a reset. -/
theorem step_next {s t : State} (h : step s = .next t) :
    t = s ∨ ∃ rest, (∃ i, exec i (s.withHost rest) = .next t) ∨
      t = (s.withHost rest).respond .illegal 0 ∨ t = (s.withHost rest).writerReset ∨
      t = (s.withHost rest).readerReset ∨ t = (s.withHost rest).blockReset := by
  cases hhost : s.host with
  | nil =>
    simp only [step, stepHost, hhost, Host.Outcome.next.injEq] at h
    exact .inl h.symm
  | cons e rest =>
    rw [step_of_host_cons hhost] at h
    refine .inr ⟨rest, ?_⟩
    cases e with
    | command c d =>
      change present c d (s.withHost rest) = .next t at h
      cases hdec : decode c d with
      | ok i => exact .inl ⟨i, present_of_decode_ok hdec _ ▸ h⟩
      | error err =>
        simp only [present, hdec, rejectWord, answerIllegal] at h
        split at h
        · cases h
        · cases h; exact .inr (.inl rfl)
    | writerReset => cases h; exact .inr (.inr (.inl rfl))
    | readerReset => cases h; exact .inr (.inr (.inr (.inl rfl)))
    | blockReset => cases h; exact .inr (.inr (.inr (.inr rfl)))

/-- Settles O47: neither a command nor any other event writes the platform's parameters or the source. -/
theorem parametersNeverChange : Obligations.ParametersNeverChange := by
  intro s t h
  obtain rfl | ⟨rest, ⟨i, hexec⟩ | rfl | rfl | rfl | rfl⟩ := step_next h
  · exact ⟨rfl, rfl⟩
  · exact exec_keeps_binding (s := s.withHost rest) hexec
  all_goals exact ⟨rfl, rfl⟩

/-- Settles O14: a command keeps the invariant (`exec_inv`), and a reset only puts registers at 0. -/
theorem stepsKeepTheInvariant : Obligations.StepsKeepTheInvariant := by
  intro s t hs h
  obtain rfl | ⟨rest, ⟨i, hexec⟩ | rfl | rfl | rfl | rfl⟩ := step_next h
  · exact hs
  · exact exec_inv (s := s.withHost rest) hs hexec
  · exact hs
  · obtain ⟨-, hpos, hcause, hsrc⟩ := hs
    exact ⟨rfl, hpos, hcause, hsrc⟩
  · obtain ⟨hused, -, hcause, hsrc⟩ := hs
    exact ⟨hused, rfl, hcause, hsrc⟩
  · obtain ⟨-, -, -, hsrc⟩ := hs
    exact ⟨rfl, rfl, rfl, hsrc⟩

/-! ### Halted blocks -/

/-- A halted block is stuck on every command word, an illegal one included. -/
theorem present_stuck (c : Cmd) (d : Data) {s : State} (h : s.bFatal = true) :
    present c d s = .fault .stuck := by
  unfold present
  cases decode c d with
  | ok i => exact exec_stuck i h
  | error e => simp [rejectWord, h]

/-- Settles O8: the entry of every command, and of an illegal word, checks `B.fatal` first (R125). -/
theorem haltedBlockIsStuck : Obligations.HaltedBlockIsStuck := by
  refine ⟨fun i s h => exec_stuck i h, fun s c d rest hhost h => ?_⟩
  rw [step_of_host_cons hhost]
  exact present_stuck c d h

end Sys2Proof.Machine
end

section
/-! One response per command (R28, R120). -/

namespace Sys2Proof.Machine

/-- R120's table: the answers a command may give. -/
def MayAnswer (i : Instr) (st : Status) (v : Data) : Prop :=
  (st ≠ .ok ∨ i.isWriter = true ∨ (∃ o, i = .skip o) → v = 0) ∧
  (st = .writerUnusable ∨ st = .ioErrWrite → i.isWriter = true) ∧
  (st = .ioErrClose → i = .close)

/-- From `s` to `t` one entry is added to the responses: an answer `i` may give, or none, and then the block is halted. -/
def Answered (i : Instr) (s t : State) : Prop :=
  ∃ r, t.responses = s.responses ++ [r] ∧ (r = none ↔ t.bFatal = true) ∧
    ∀ st v, r = some { status := st, result := v } → MayAnswer i st v

theorem respond_answered {i : Instr} {s u : State} {st : Status} {v : Data}
    (hr : u.responses = s.responses) (hf : u.bFatal = false) (h : MayAnswer i st v) :
    Answered i s (u.respond st v) := by
  refine ⟨some { status := st, result := v }, by rw [respond_responses, hr], by simp [hf], ?_⟩
  rintro _ _ ⟨⟩
  exact h

theorem raiseFatal_answered {i : Instr} {s u : State} (c : FatalCause)
    (hr : u.responses = s.responses) : Answered i s (u.raiseFatal c) :=
  ⟨none, by rw [raiseFatal_responses, hr], by simp, nofun⟩

/-- Settles O46: by the ends a writer command (`exec_writer_ends`) and a reader command (`exec_reader_ends`) can come to. -/
theorem oneResponsePerCommand : Obligations.OneResponsePerCommand := by
  intro i s t h
  change Answered i s t
  cases hi : i.isWriter with
  | true =>
    obtain ⟨hf, u, st, hu, -, hclose, rfl⟩ := exec_writer_ends hi h
    exact respond_answered hu.responses (hu.bFatal.trans hf) ⟨fun _ => rfl, fun _ => hi, hclose⟩
  | false =>
    obtain ⟨hf, u, hu, -, hend⟩ := exec_reader_ends hi h
    have hf' := hu.bFatal.trans hf
    cases hend with
    | illegal => exact respond_answered hu.responses hf' ⟨fun _ => rfl, by simp, nofun⟩
    | answered v hskip =>
      refine respond_answered hu.responses hf' ⟨?_, by simp, nofun⟩
      rintro (hst | hw | ⟨o, ho⟩)
      · exact absurd rfl hst
      · simp [hi] at hw
      · exact hskip o ho
    | halted c => exact raiseFatal_answered c hu.responses

end Sys2Proof.Machine
end

section
/-! The stale bits of `W.cache` are never seen (R22, R31, R136). -/

namespace Sys2Proof.Machine

/-! ### States that agree but for stale bits -/

/-- Such a state is the other one with another cache of the same pending bits. -/
theorem staleEq_iff {s t : State} :
    StaleEq s t ↔ ∃ c, t = s.withCache c s.wUsed ∧ c.toNat % 2 ^ s.wUsed.toNat = s.pending := by
  constructor
  · rintro ⟨hpend, hrest⟩
    obtain ⟨cache, used, err, p, f, fc, pl, src, bus, script, d, host, rs⟩ := t
    have hused : s.wUsed = used := congrArg State.wUsed hrest
    refine ⟨cache, congrArg (State.withCache cache used) hrest.symm |>.trans ?_, ?_⟩
    · rw [hused]; rfl
    · rw [hused]; exact hpend.symm
  · rintro ⟨c, rfl, hc⟩
    exact ⟨hc.symm, rfl⟩

theorem StaleEq.refl (s : State) : StaleEq s s := ⟨rfl, rfl⟩

theorem StaleEq.of_eq {s t : State} (h : s = t) : StaleEq s t := h ▸ StaleEq.refl s

section Fields

variable {s t : State} (h : StaleEq s t)
include h

theorem StaleEq.wUsed : t.wUsed = s.wUsed := (congrArg State.wUsed h.2).symm
theorem StaleEq.wErr : t.wErr = s.wErr := (congrArg State.wErr h.2).symm
theorem StaleEq.bFatal : t.bFatal = s.bFatal := (congrArg State.bFatal h.2).symm
theorem StaleEq.platform : t.platform = s.platform := (congrArg State.platform h.2).symm
theorem StaleEq.host : t.host = s.host := (congrArg State.host h.2).symm

theorem StaleEq.answerAt : t.answerAt = s.answerAt := by
  obtain ⟨c, rfl, -⟩ := staleEq_iff.mp h
  rfl

/-- Nothing a host observes of a state is in the cache (R136). -/
theorem StaleEq.observe : s.observe = t.observe := by
  obtain ⟨c, rfl, -⟩ := staleEq_iff.mp h
  rfl

end Fields

/-- With 8 bits or more pending no bit is stale. -/
theorem StaleEq.eq_of_full {s t : State} (h : StaleEq s t) (h8 : 8 ≤ s.wUsed.toNat) : s = t := by
  obtain ⟨c, rfl, hc⟩ := staleEq_iff.mp h
  have hpow : 2 ^ 8 ≤ 2 ^ s.wUsed.toNat := Nat.pow_le_pow_right (by omega) h8
  have hcache : c = s.wCache := by
    apply BitVec.eq_of_toNat_eq
    rwa [State.pending, Nat.mod_eq_of_lt (c.isLt.trans_le hpow),
      Nat.mod_eq_of_lt (s.wCache.isLt.trans_le hpow)] at hc
  rw [hcache]
  rfl

/-- An update that neither sees nor touches the two bit registers of the writer. -/
def IgnoresCache (f : State → State) : Prop :=
  ∀ (c : Byte) (u : BitVec 4) (s : State), f (s.withCache c u) = (f s).withCache c u

theorem IgnoresCache.staleEq {f : State → State} (hf : IgnoresCache f) {s t : State}
    (h : StaleEq s t) : StaleEq (f s) (f t) := by
  obtain ⟨c, rfl, hc⟩ := staleEq_iff.mp h
  have hself : f s = (f s).withCache s.wCache s.wUsed := hf s.wCache s.wUsed s
  refine staleEq_iff.mpr ⟨c, ?_, ?_⟩ <;> rw [hself]
  · exact hf c s.wUsed s
  · exact hc

theorem respond_ignoresCache (st : Status) (r : Data) : IgnoresCache (State.respond st r) :=
  fun _ _ _ => rfl

theorem raiseFatal_ignoresCache (c : FatalCause) : IgnoresCache (State.raiseFatal c) :=
  fun _ _ _ => rfl

theorem readerReset_ignoresCache : IgnoresCache State.readerReset := fun _ _ _ => rfl

theorem withHost_ignoresCache (rest : List HostEvent) : IgnoresCache (State.withHost rest) :=
  fun _ _ _ => rfl

/-- Closing the sink. -/
theorem sinkClosed_ignoresCache (a : SinkAnswer) :
    IgnoresCache (fun s => (s.answersDrawn 1).record (.sinkClose a)) :=
  fun _ _ _ => rfl

/-! ### The writer's bodies -/

/-- What is pending after a chunk is put together from what was pending and the chunk. -/
theorem shiftIn_pending (c bits : Nat) (s : State) :
    (s.shiftIn c bits).pending =
      (s.pending <<< c ||| bits) % 2 ^ 8 % 2 ^ ((s.wUsed.toNat + c) % 2 ^ 4) := by
  simp only [State.pending, shiftIn_wCache, shiftIn_wUsed, shiftedIn, BitVec.toNat_ofNat]
  apply Nat.eq_of_testBit_eq
  intro i
  simp only [Nat.testBit_mod_two_pow, Nat.testBit_or, Nat.testBit_shiftLeft]
  have hmod := Nat.mod_le (s.wUsed.toNat + c) (2 ^ 4)
  by_cases hi : i < (s.wUsed.toNat + c) % 2 ^ 4
  · by_cases hc : c ≤ i
    · have hlow : i - c < s.wUsed.toNat := by omega
      simp [hlow]
    · simp [hc]
  · simp only [hi, decide_false, Bool.false_and]

theorem shiftIn_staleEq (c bits : Nat) {s t : State} (h : StaleEq s t) :
    StaleEq (s.shiftIn c bits) (t.shiftIn c bits) := by
  have hpend := h.1
  obtain ⟨x, rfl, -⟩ := staleEq_iff.mp h
  refine ⟨?_, rfl⟩
  rw [shiftIn_pending, shiftIn_pending, hpend]
  rfl

/-- Padding pushes the stale bits out of the cache (R84). -/
theorem padCache_eq_of_staleEq {s t : State} (h : StaleEq s t) : s.padCache = t.padCache := by
  by_cases h8 : 8 ≤ s.wUsed.toNat
  · rw [h.eq_of_full h8]
  · obtain ⟨c, rfl, hc⟩ := staleEq_iff.mp h
    have hpad : padded s.wCache s.wUsed.toNat = padded c s.wUsed.toNat := by
      rw [padded_eq _ (by omega), padded_eq _ (by omega), hc, State.pending]
    simp only [State.padCache, State.withCache, hpad]

/-- The loop of WRITEBITS emits only a full cache, and a full cache has no stale bit. -/
theorem writeLoop_staleEq (v fuel rem : Nat) {s t : State} (h : StaleEq s t) :
    (writeLoop v fuel rem s).1 = (writeLoop v fuel rem t).1 ∧
      StaleEq (writeLoop v fuel rem s).2 (writeLoop v fuel rem t).2 := by
  induction fuel generalizing rem s t with
  | zero => exact ⟨rfl, h⟩
  | succ fuel ih =>
    unfold writeLoop
    by_cases h0 : rem = 0
    · rw [if_pos h0, if_pos h0]
      exact ⟨rfl, h⟩
    · have hs1 := shiftIn_staleEq (chunkSize rem s.wUsed.toNat)
        (chunkBits v rem (chunkSize rem s.wUsed.toNat)) h
      simp only [h0, if_false, h.wUsed]
      generalize s.shiftIn _ _ = s1 at hs1 ⊢
      generalize t.shiftIn _ _ = t1 at hs1 ⊢
      by_cases h8 : s1.wUsed = 8
      · have heq : s1 = t1 := hs1.eq_of_full (by rw [h8]; decide)
        rw [heq]
        exact ⟨rfl, StaleEq.refl _⟩
      · rw [hs1.wUsed, if_neg h8, if_neg h8]
        exact ih (rem - chunkSize rem s.wUsed.toNat) hs1

/-- FLUSH's body either does nothing or begins by padding, after which no stale bit is left. -/
theorem flushBody_staleEq {s t : State} (h : StaleEq s t) :
    (flushBody s = (.ok, s) ∧ flushBody t = (.ok, t)) ∨ flushBody s = flushBody t := by
  by_cases h0 : s.wUsed = 0
  · exact .inl ⟨flushBody_none h0, flushBody_none (h.wUsed.trans h0)⟩
  · right
    rw [flushBody, flushBody, h.wUsed, if_neg h0, if_neg h0, padCache_eq_of_staleEq h]

theorem closeBody_staleEq {s t : State} (h : StaleEq s t) :
    (closeBody s).1 = (closeBody t).1 ∧ StaleEq (closeBody s).2 (closeBody t).2 := by
  rcases flushBody_staleEq h with ⟨hs, ht⟩ | heq
  · have hplat := h.platform
    cases hc : s.platform.sinkHasClose
    · rw [closeBody_no_close hs hc, closeBody_no_close ht (hplat ▸ hc)]
      exact ⟨rfl, h⟩
    · rw [closeBody_close hs hc, closeBody_close ht (hplat ▸ hc), h.answerAt]
      exact ⟨rfl, (sinkClosed_ignoresCache _).staleEq h⟩
  · rw [closeBody, closeBody, heq]
    exact ⟨rfl, StaleEq.refl _⟩

/-! ### The reader's bodies -/

theorem memRead_withCache (a : Nat) (c : Byte) (u : BitVec 4) (s : State) :
    memRead a (s.withCache c u) = ((memRead a s).1, (memRead a s).2.withCache c u) := rfl

theorem readWhole_withCache (k acc : Nat) (c : Byte) (u : BitVec 4) (s : State) :
    readWhole k acc (s.withCache c u) =
      ((readWhole k acc s).1, (readWhole k acc s).2.withCache c u) := by
  induction k generalizing acc s with
  | zero => rfl
  | succ k ih =>
    unfold readWhole
    rw [withCache_byteOffset, memRead_withCache]
    rcases memRead s.byteOffset s with ⟨_ | b, s1⟩
    · rfl
    · exact ih (accByte acc b) (s1.advance 8)

theorem readTail_withCache (rem acc : Nat) (c : Byte) (u : BitVec 4) (s : State) :
    readTail rem acc (s.withCache c u) =
      ((readTail rem acc s).1, (readTail rem acc s).2.withCache c u) := by
  unfold readTail
  rw [withCache_byteOffset, memRead_withCache]
  split
  · rfl
  · rcases memRead s.byteOffset s with ⟨_ | b, s1⟩ <;> rfl

theorem readField_withCache (n : Nat) (c : Byte) (u : BitVec 4) (s : State) :
    readField n (s.withCache c u) = ((readField n s).1, (readField n s).2.withCache c u) := by
  unfold readField readWithin readAcross
  rw [withCache_bitOffset, withCache_byteOffset, memRead_withCache]
  rcases memRead s.byteOffset s with ⟨_ | b, s1⟩
  · split <;> rfl
  · split
    · rfl
    · have hadv : (s1.withCache c u).advance (8 - s.bitOffset) =
          (s1.advance (8 - s.bitOffset)).withCache c u := rfl
      simp only [hadv, readWhole_withCache]
      generalize s1.advance _ = s2
      rcases readWhole _ _ s2 with ⟨_ | acc, s3⟩
      · rfl
      · exact readTail_withCache _ _ c u s3

theorem readBody_ignoresCache (n : Nat) : IgnoresCache (readBody n) := by
  intro c u s
  unfold readBody
  rw [withCache_rPos, readField_withCache]
  split
  · rfl
  · rcases readField n s with ⟨_ | v, s1⟩ <;> rfl

theorem moveCursor_ignoresCache (new : Int) (r : Data) : IgnoresCache (moveCursor new r) := by
  intro c u s
  unfold moveCursor
  split <;> rfl

theorem seekBody_ignoresCache (wh : Whence) (offset : Data) : IgnoresCache (seekBody wh offset) := by
  intro c u s
  cases wh with
  | start => exact moveCursor_ignoresCache _ _ c u s
  | current => exact moveCursor_ignoresCache _ _ c u s
  | other2 => rfl
  | other3 => rfl

theorem skipBody_ignoresCache (offset : Data) : IgnoresCache (skipBody offset) :=
  fun c u s => moveCursor_ignoresCache (skipTarget offset s) 0 c u s

theorem tellBody_ignoresCache : IgnoresCache (fun s => s.respond .ok s.rPos) :=
  fun _ _ _ => rfl

/-! ### Commands and steps -/

section Entries

variable {legal : Bool} {s t : State}

theorem writerEntry_staleEq {b : State → Status × State} (h : StaleEq s t)
    (hb : (b s).1 = (b t).1 ∧ StaleEq (b s).2 (b t).2) :
    OutcomeStaleEq (writerEntry legal (fun s => (b s).2.respond (b s).1 0) s)
      (writerEntry legal (fun s => (b s).2.respond (b s).1 0) t) := by
  obtain ⟨hst, hs⟩ := hb
  unfold writerEntry
  rw [h.bFatal, h.wErr]
  split
  · rfl
  · split
    · exact (respond_ignoresCache _ _).staleEq h
    · split
      · exact (respond_ignoresCache _ _).staleEq h
      · simp only [hst]
        exact (respond_ignoresCache _ _).staleEq hs

theorem readerEntry_staleEq {body : State → State} (h : StaleEq s t) (hb : IgnoresCache body) :
    OutcomeStaleEq (readerEntry legal body s) (readerEntry legal body t) := by
  unfold readerEntry
  rw [h.bFatal]
  split
  · rfl
  · split
    · exact (respond_ignoresCache _ _).staleEq h
    · exact hb.staleEq h

end Entries

theorem exec_staleEq (i : Instr) {s t : State} (h : StaleEq s t) :
    OutcomeStaleEq (exec i s) (exec i t) := by
  cases i with
  | writebits n v =>
    rw [exec_writebits, exec_writebits]
    exact writerEntry_staleEq h (writeLoop_staleEq v.toNat (n + 1) n h)
  | flush =>
    rw [exec_flush, exec_flush]
    refine writerEntry_staleEq h ?_
    rcases flushBody_staleEq h with ⟨hs, ht⟩ | heq
    · rw [hs, ht]
      exact ⟨rfl, h⟩
    · rw [heq]
      exact ⟨rfl, StaleEq.refl _⟩
  | close =>
    rw [exec_close, exec_close]
    exact writerEntry_staleEq h (closeBody_staleEq h)
  | readbits n => exact readerEntry_staleEq h (readBody_ignoresCache n)
  | seek wh o => exact readerEntry_staleEq h (seekBody_ignoresCache wh o)
  | skip o => exact readerEntry_staleEq h (skipBody_ignoresCache o)
  | tell => exact readerEntry_staleEq h tellBody_ignoresCache

theorem present_staleEq (c : Cmd) (d : Data) {s t : State} (h : StaleEq s t) :
    OutcomeStaleEq (present c d s) (present c d t) := by
  unfold present
  cases decode c d with
  | ok i => exact exec_staleEq i h
  | error e =>
    simp only [rejectWord, h.bFatal]
    split
    · rfl
    · exact (respond_ignoresCache _ _).staleEq h

/-- A writer reset overwrites the cache, stale bits and all (R140). -/
theorem writerReset_eq_of_staleEq {s t : State} (h : StaleEq s t) : s.writerReset = t.writerReset := by
  obtain ⟨c, rfl, -⟩ := staleEq_iff.mp h
  rfl

theorem performEvent_staleEq (e : HostEvent) {s t : State} (h : StaleEq s t) :
    OutcomeStaleEq (performEvent e s) (performEvent e t) := by
  cases e with
  | command c d => exact present_staleEq c d h
  | writerReset => exact StaleEq.of_eq (writerReset_eq_of_staleEq h)
  | readerReset => exact readerReset_ignoresCache.staleEq h
  | blockReset =>
    refine StaleEq.of_eq ?_
    rw [State.blockReset, State.blockReset, writerReset_eq_of_staleEq h]

theorem step_staleEq {s t : State} (h : StaleEq s t) : OutcomeStaleEq (step s) (step t) := by
  cases hs : s.host with
  | nil =>
    rw [step, stepHost, step, stepHost, h.host, hs]
    exact h
  | cons e rest =>
    rw [step_of_host_cons hs, step_of_host_cons (h.host.trans hs)]
    exact performEvent_staleEq e ((withHost_ignoresCache rest).staleEq h)

/-- Settles O51: stale bits are pushed out of the cache before it is emitted, and no other part of a step looks at it. -/
theorem staleBitsAreNeverSeen : Obligations.StaleBitsAreNeverSeen :=
  fun _ _ h => ⟨h.observe, step_staleEq h⟩

end Sys2Proof.Machine
end

section
/-! The transactions of a command (R40, R46 to R48, R149): how many it adds, of which kind, and that it takes none back. -/

namespace Sys2Proof.Machine

/-! ### Counting transactions -/

theorem sinkWrites_append (ts us : List Transaction) :
    sinkWrites (ts ++ us) = sinkWrites ts + sinkWrites us :=
  List.countP_append

theorem sinkCloses_append (ts us : List Transaction) :
    sinkCloses (ts ++ us) = sinkCloses ts + sinkCloses us :=
  List.countP_append

/-- Every transaction is of one of the three kinds. -/
theorem length_eq_counts (ts : List Transaction) :
    ts.length = sinkWrites ts + sinkCloses ts + memReads ts := by
  induction ts with
  | nil => rfl
  | cons x ts ih =>
    have hone : [x].length = sinkWrites [x] + sinkCloses [x] + memReads [x] := by cases x <;> rfl
    rw [← List.singleton_append, List.length_append, sinkWrites_append, sinkCloses_append, memReads_append]
    omega

/-- Source reads are no sink writes. -/
theorem sinkWrites_of_memReads {ts : List Transaction} (h : ∀ x ∈ ts, isSinkOp x = false) :
    sinkWrites ts = 0 := by
  refine List.countP_eq_zero.mpr fun x hx => ?_
  cases x with
  | sinkWrite v a => cases h _ hx
  | sinkClose a => simp
  | memRead a b => simp

/-- The sink accepts at most one byte for each write. -/
theorem acceptedByte_length_le (ts : List Transaction) :
    (ts.filterMap acceptedByte).length ≤ sinkWrites ts := by
  induction ts with
  | nil => exact Nat.zero_le _
  | cons x ts ih =>
    rw [← List.singleton_append, List.filterMap_append, List.length_append, sinkWrites_append]
    refine Nat.add_le_add ?_ ih
    cases x with
    | sinkWrite v a =>
      cases a with
      | ok => exact Nat.le_refl 1
      | err => exact Nat.zero_le 1
    | sinkClose a => exact Nat.le_refl 0
    | memRead a b => exact Nat.le_refl 0

/-- From `s` to `t` at most `w` sink writes, `c` sink closes and `r` source reads have been added. -/
def AddsAtMost (w c r : Nat) (s t : State) : Prop :=
  ∃ ts, t.bus = s.bus ++ ts ∧ sinkWrites ts ≤ w ∧ sinkCloses ts ≤ c ∧ memReads ts ≤ r

theorem AddsAtMost.of_bus_eq {w c r : Nat} {s t : State} (h : t.bus = s.bus) : AddsAtMost w c r s t :=
  ⟨[], by rw [h, List.append_nil], Nat.zero_le w, Nat.zero_le c, Nat.zero_le r⟩

theorem AddsAtMost.trans_bus_eq {w c r : Nat} {s t u : State} (h1 : AddsAtMost w c r s t)
    (h2 : u.bus = t.bus) : AddsAtMost w c r s u := by
  obtain ⟨ts, hts, hbounds⟩ := h1
  exact ⟨ts, h2.trans hts, hbounds⟩

theorem AddsAtMost.trans {w c r w' c' r' : Nat} {s t u : State} (h1 : AddsAtMost w c r s t)
    (h2 : AddsAtMost w' c' r' t u) : AddsAtMost (w + w') (c + c') (r + r') s u := by
  obtain ⟨ts, hts, hw, hc, hr⟩ := h1
  obtain ⟨us, hus, hw', hc', hr'⟩ := h2
  refine ⟨ts ++ us, by rw [hus, hts, List.append_assoc], ?_, ?_, ?_⟩
  · rw [sinkWrites_append]; exact Nat.add_le_add hw hw'
  · rw [sinkCloses_append]; exact Nat.add_le_add hc hc'
  · rw [memReads_append]; exact Nat.add_le_add hr hr'

theorem AddsAtMost.mono {w c r w' c' r' : Nat} {s t : State} (h : AddsAtMost w c r s t)
    (hw : w ≤ w') (hc : c ≤ c') (hr : r ≤ r') : AddsAtMost w' c' r' s t := by
  obtain ⟨ts, hts, hw1, hc1, hr1⟩ := h
  exact ⟨ts, hts, hw1.trans hw, hc1.trans hc, hr1.trans hr⟩

/-! ### The writer's transactions -/

theorem emitCache_addsAtMost (s : State) : AddsAtMost 1 0 0 s (emitCache s).2 := by
  rcases emitCache_cases s with ⟨-, h⟩ | ⟨-, h⟩ <;> rw [h] <;>
    exact ⟨[_], rfl, Nat.le_refl 1, Nat.le_refl 0, Nat.le_refl 0⟩

/-- The loop of WRITEBITS writes once for each byte that its bits and the pending ones fill (R46). -/
theorem writeLoop_addsAtMost {v fuel rem : Nat} {s : State} (hu : s.wUsed.toNat ≤ 7) :
    AddsAtMost ((s.wUsed.toNat + rem) / 8) 0 0 s (writeLoop v fuel rem s).2 := by
  induction fuel generalizing rem s with
  | zero => exact .of_bus_eq rfl
  | succ fuel ih =>
    unfold writeLoop
    by_cases h0 : rem = 0
    · rw [if_pos h0]
      exact .of_bus_eq rfl
    · have hc : chunkSize rem s.wUsed.toNat = min rem (8 - s.wUsed.toNat) := rfl
      rw [if_neg h0]
      generalize chunkSize rem s.wUsed.toNat = c at hc ⊢
      have hused := shiftIn_used (s := s) (chunkBits v rem c) (by omega : s.wUsed.toNat + c ≤ 8)
      have h1 : AddsAtMost 0 0 0 s (s.shiftIn c (chunkBits v rem c)) := .of_bus_eq rfl
      simp only
      generalize s.shiftIn c (chunkBits v rem c) = s1 at hused h1 ⊢
      split
      next h8 =>
        rw [h8] at hused
        have h2 := h1.trans (emitCache_addsAtMost s1)
        have hfull : s.wUsed.toNat + c = 8 := hused.symm
        split <;> rename_i s2 heq <;> rw [heq] at h2
        · exact h2.mono (by omega) le_rfl le_rfl
        · have hnone : s2.clearUsed.wUsed.toNat = 0 := rfl
          have h3 := ih (rem := rem - c) (s := s2.clearUsed) (Nat.zero_le 7)
          exact ((h2.trans_bus_eq rfl).trans h3).mono (by omega) le_rfl le_rfl
      next h8 =>
        have hne : s1.wUsed.toNat ≠ 8 := fun h => h8 (BitVec.eq_of_toNat_eq h)
        exact (h1.trans (ih (rem := rem - c) (by omega))).mono (by omega) le_rfl le_rfl

/-- FLUSH's body writes once, and only with bits pending. -/
theorem flushBody_addsAtMost (s : State) :
    AddsAtMost (if s.wUsed = 0 then 0 else 1) 0 0 s (flushBody s).2 := by
  rcases flushBody_cases s with ⟨h0, h⟩ | ⟨h0, -, h⟩ | ⟨h0, -, h⟩ <;> rw [h]
  · rw [if_pos h0]
    exact .of_bus_eq rfl
  all_goals
    rw [if_neg h0]
    exact ⟨[_], rfl, Nat.le_refl 1, Nat.le_refl 0, Nat.le_refl 0⟩

theorem closeBody_addsAtMost (s : State) :
    AddsAtMost (if s.wUsed = 0 then 0 else 1) 1 0 s (closeBody s).2 := by
  have hflush := flushBody_addsAtMost s
  have closes : ∀ t, flushBody s = (.ok, t) →
      AddsAtMost (if s.wUsed = 0 then 0 else 1) 1 0 s (closeBody s).2 := by
    intro t ht
    rw [ht] at hflush
    rcases closeBody_of_flush_ok ht with hb | ⟨st, hb⟩ <;> rw [hb]
    · exact hflush.mono le_rfl (Nat.zero_le 1) le_rfl
    · have hclose : AddsAtMost 0 1 0 t ((t.answersDrawn 1).record (.sinkClose (t.answerAt 0))) :=
        ⟨[_], rfl, Nat.le_refl 0, Nat.le_refl 1, Nat.le_refl 0⟩
      exact hflush.trans hclose
  rcases flushBody_cases s with ⟨-, hb⟩ | ⟨-, -, hb⟩ | ⟨-, -, hb⟩
  · exact closes _ hb
  · exact closes _ hb
  · rw [closeBody_flush_fails hb]
    rw [hb] at hflush
    exact hflush.mono le_rfl (Nat.zero_le 1) le_rfl

/-! ### The reader's transactions -/

theorem memRead_addsAtMost (a : Nat) (s : State) : AddsAtMost 0 0 1 s (memRead a s).2 :=
  ⟨[_], rfl, Nat.le_refl 0, Nat.le_refl 0, Nat.le_refl 1⟩

/-- A read, and what is done with its byte if it gives one. -/
theorem memRead_advance_addsAtMost {a : Nat} {s s1 : State} {b : Option Byte} (h : memRead a s = (b, s1))
    (k : Nat) : AddsAtMost 0 0 1 s (s1.advance k) := by
  have h1 := memRead_addsAtMost a s
  rw [h] at h1
  exact h1.trans_bus_eq rfl

theorem readWhole_addsAtMost (k acc : Nat) (s : State) : AddsAtMost 0 0 k s (readWhole k acc s).2 := by
  induction k generalizing acc s with
  | zero => exact .of_bus_eq rfl
  | succ k ih =>
    unfold readWhole
    have h1 := memRead_addsAtMost s.byteOffset s
    split <;> rename_i s1 heq
    · rw [heq] at h1
      exact h1.mono le_rfl le_rfl (by omega)
    · exact ((memRead_advance_addsAtMost heq 8).trans (ih _ _)).mono le_rfl le_rfl (by omega)

theorem readTail_addsAtMost (rem acc : Nat) (s : State) : AddsAtMost 0 0 1 s (readTail rem acc s).2 := by
  unfold readTail
  have h1 := memRead_addsAtMost s.byteOffset s
  split
  · exact .of_bus_eq rfl
  · split <;> rename_i s1 heq
    · rwa [heq] at h1
    · exact memRead_advance_addsAtMost heq rem

/-- A field of at most 64 bits lies in at most 9 bytes (R104): the first, 7 whole ones and the tail. -/
theorem readField_addsAtMost {n : Nat} (hn : n ≤ 64) (s : State) :
    AddsAtMost 0 0 9 s (readField n s).2 := by
  have h1 := memRead_addsAtMost s.byteOffset s
  have hbo : s.bitOffset < 8 := Nat.mod_lt _ (by omega)
  unfold readField
  split
  · unfold readWithin
    split <;> rename_i s1 heq
    · rw [heq] at h1
      exact h1.mono le_rfl le_rfl (by omega)
    · exact (memRead_advance_addsAtMost heq n).mono le_rfl le_rfl (by omega)
  · unfold readAcross
    split
    next s1 heq =>
      rw [heq] at h1
      exact h1.mono le_rfl le_rfl (by omega)
    next b s1 heq =>
      have h2 := (memRead_advance_addsAtMost heq (8 - s.bitOffset)).trans
        (readWhole_addsAtMost ((n - (8 - s.bitOffset)) / 8) (unconsumed b s.bitOffset) _)
      simp only
      split <;> rename_i s2 heq2 <;> rw [heq2] at h2
      · exact h2.mono le_rfl le_rfl (by omega)
      · exact (h2.trans (readTail_addsAtMost _ _ s2)).mono le_rfl le_rfl (by omega)

theorem readBody_addsAtMost {n : Nat} (hn : n ≤ 64) (s : State) : AddsAtMost 0 0 9 s (readBody n s) := by
  have hfield := readField_addsAtMost hn s
  rcases readBody_cases n s with ⟨-, hb⟩ | ⟨-, v, t, hr, hb⟩ | ⟨-, t, hr, hb⟩ <;> rw [hb]
  · exact .of_bus_eq rfl
  · rw [hr] at hfield
    exact hfield.trans_bus_eq rfl
  · rw [hr] at hfield
    exact hfield.trans_bus_eq rfl

theorem moveCursor_bus (new : Int) (r : Data) (s : State) : (moveCursor new r s).bus = s.bus := by
  rcases moveCursor_cases new r s with ⟨-, h⟩ | ⟨-, h⟩ <;> rw [h] <;> rfl

theorem seekBody_bus (wh : Whence) (offset : Data) (s : State) : (seekBody wh offset s).bus = s.bus := by
  unfold seekBody
  cases seekTarget wh offset s with
  | none => rfl
  | some new => exact moveCursor_bus new _ s

theorem skipBody_bus (offset : Data) (s : State) : (skipBody offset s).bus = s.bus := by
  rw [skipBody, moveCursor_bus]

/-! ### A command's transactions -/

section Entries

variable {w c r : Nat} {legal : Bool} {s t : State}

theorem writerEntry_addsAtMost {b : State → Status × State}
    (hb : legal = true → s.wErr = false → AddsAtMost w c r s (b s).2)
    (h : writerEntry legal (fun s => (b s).2.respond (b s).1 0) s = .next t) : AddsAtMost w c r s t := by
  obtain ⟨-, ⟨-, rfl⟩ | ⟨-, -, rfl⟩ | ⟨hl, he, rfl⟩⟩ := writerEntry_next h
  · exact .of_bus_eq rfl
  · exact .of_bus_eq rfl
  · exact hb hl he

theorem readerEntry_addsAtMost {body : State → State} (hb : legal = true → AddsAtMost w c r s (body s))
    (h : readerEntry legal body s = .next t) : AddsAtMost w c r s t := by
  obtain ⟨-, ⟨-, rfl⟩ | ⟨hl, rfl⟩⟩ := readerEntry_next h
  · exact .of_bus_eq rfl
  · exact hb hl

end Entries

/-- Only CLOSE closes the sink, and once. -/
def closeBound : Instr → Nat
  | .close => 1
  | _ => 0

/-- Only READBITS reads, at most 9 bytes (R104). -/
def readBound : Instr → Nat
  | .readbits _ => 9
  | _ => 0

/-- The bounds on every command's transactions (R46, R149). -/
theorem exec_addsAtMost {i : Instr} {s t : State} (hu : s.usedLegal = true) (h : exec i s = .next t) :
    AddsAtMost (min 8 (storedCount i s)) (closeBound i) (readBound i) s t := by
  cases i with
  | writebits n v =>
    rw [exec_writebits] at h
    refine writerEntry_addsAtMost (fun hl he => ?_) h
    have hn : n ≤ 64 := of_decide_eq_true hl
    have hu7 : s.wUsed.toNat ≤ 7 := by simpa [usedLegal_iff, he] using hu
    refine (writeLoop_addsAtMost hu7).mono ?_ le_rfl le_rfl
    simp only [storedCount, emitCount]
    omega
  | flush =>
    refine writerEntry_addsAtMost (fun _ _ => (flushBody_addsAtMost s).mono ?_ le_rfl le_rfl) h
    simp only [storedCount]
    split <;> omega
  | close =>
    refine writerEntry_addsAtMost (fun _ _ => (closeBody_addsAtMost s).mono ?_ le_rfl le_rfl) h
    simp only [storedCount]
    split <;> omega
  | readbits n =>
    rw [exec_readbits] at h
    refine readerEntry_addsAtMost (fun hl => ?_) h
    exact (readBody_addsAtMost (of_decide_eq_true hl) s).mono (Nat.zero_le _) le_rfl le_rfl
  | seek wh o => exact readerEntry_addsAtMost (fun _ => .of_bus_eq (seekBody_bus wh o s)) h
  | skip o => exact readerEntry_addsAtMost (fun _ => .of_bus_eq (skipBody_bus o s)) h
  | tell => exact readerEntry_addsAtMost (fun _ => .of_bus_eq rfl) h

/-- Settles O49: the bounds of `exec_addsAtMost`, command by command. -/
theorem transactionBounds : Obligations.TransactionBounds := by
  intro i s t hu h
  obtain ⟨ts, hts, hw, hc, hr⟩ := exec_addsAtMost hu h
  refine ⟨ts, hts, ?_⟩
  have nothing : sinkWrites ts ≤ 0 → sinkCloses ts ≤ 0 → memReads ts ≤ 0 → ts = [] := by
    intro hw hc hr
    have hlen := length_eq_counts ts
    exact List.eq_nil_of_length_eq_zero (by omega)
  cases i with
  | writebits n v => exact ⟨by omega, Nat.le_zero.mp hc, Nat.le_zero.mp hr⟩
  | flush =>
    simp only [storedCount] at hw
    exact ⟨by split at hw <;> omega, Nat.le_zero.mp hc, Nat.le_zero.mp hr⟩
  | close =>
    simp only [storedCount] at hw
    exact ⟨by split at hw <;> omega, hc, Nat.le_zero.mp hr⟩
  | readbits n => exact ⟨Nat.le_zero.mp hw, Nat.le_zero.mp hc, hr⟩
  | seek wh o => exact nothing hw hc hr
  | skip o => exact nothing hw hc hr
  | tell => exact nothing hw hc hr

/-! ### What stays as it was -/

/-- Settles O30: a command adds at most `storedCount` bytes at the sink's end, and only under LOOPBACK are they source bytes,
at the addresses of their numbers (R54). -/
theorem otherBytesReadAsBefore : Obligations.OtherBytesReadAsBefore := by
  intro i s t hu h
  obtain ⟨ts, hts, hw, -, -⟩ := exec_addsAtMost hu h
  obtain ⟨hplat, hsrc⟩ := exec_keeps_binding h
  have hacc : t.accepted = s.accepted ++ ts.filterMap acceptedByte := by
    rw [State.accepted, hts, List.filterMap_append, State.accepted]
  have hlen := acceptedByte_length_le ts
  refine ⟨by rw [hacc, List.length_append]; omega, fun a ha => ?_⟩
  have hbyte : t.accepted[a]? = s.accepted[a]? := by
    rcases ha with ha | ha
    · rw [hacc, List.getElem?_append_left ha]
    · rw [List.getElem?_eq_none (by rw [hacc, List.length_append]; omega),
        List.getElem?_eq_none (by omega)]
  simp only [State.sourceAt, hplat, hsrc, hbyte]

/-- Settles O44: up to its response or FATAL a reader command moves only the cursor and reads the source
(`exec_reader_next`). -/
theorem readerCommandFrame : Obligations.ReaderCommandFrame := by
  intro i s t hi h
  obtain ⟨-, u, hu, hend⟩ := exec_reader_next hi h
  obtain ⟨ts, hts, hreads⟩ := hu.bus
  have hwrites : sinkWrites u.bus = sinkWrites s.bus := by
    rw [hts, sinkWrites_append, sinkWrites_of_memReads hreads, Nat.add_zero]
  have hresp : ∃ r, t.responses = s.responses ++ [r] := by
    rcases hend with ⟨st, r, rfl⟩ | ⟨c, rfl⟩
    · exact ⟨_, by rw [respond_responses, hu.responses]⟩
    · exact ⟨_, by rw [raiseFatal_responses, hu.responses]⟩
  rcases hend with ⟨st, r, rfl⟩ | ⟨c, rfl⟩ <;>
    exact ⟨hu.wCache, hu.wUsed, hu.wErr, hu.platform, hu.source, hu.host, hu.sinkScript, hu.draws,
      hu.accepted, hu.closeAnswers, hwrites, hu.sourceAt, hresp⟩

theorem exec_bus_prefix {i : Instr} {s t : State} (h : exec i s = .next t) : s.bus <+: t.bus := by
  cases hi : i.isWriter with
  | true =>
    obtain ⟨-, u, st, hu, rfl⟩ := exec_writer_next hi h
    obtain ⟨ts, hts, -⟩ := hu.bus
    exact ⟨ts, hts.symm⟩
  | false =>
    obtain ⟨-, u, hu, hend⟩ := exec_reader_next hi h
    obtain ⟨ts, hts, -⟩ := hu.bus
    rcases hend with ⟨st, r, rfl⟩ | ⟨c, rfl⟩ <;> exact ⟨ts, hts.symm⟩

/-- A step takes no transaction back: commands add some, the other events none. -/
theorem step_bus_prefix {s t : State} (h : step s = .next t) : s.bus <+: t.bus := by
  obtain rfl | ⟨rest, ⟨i, hexec⟩ | rfl | rfl | rfl | rfl⟩ := step_next h
  · exact List.prefix_rfl
  · exact exec_bus_prefix (s := s.withHost rest) hexec
  all_goals exact List.prefix_rfl

/-- Settles O48: the sink's bytes, the closes and the source are views of the transactions, of which a step only adds some. -/
theorem transactionsAreNeverUndone : Obligations.TransactionsAreNeverUndone := by
  intro s t h
  have hbus := step_bus_prefix h
  obtain ⟨hplat, hsrc⟩ := parametersNeverChange s t h
  have hacc : s.accepted <+: t.accepted := hbus.filterMap acceptedByte
  exact ⟨hbus, hacc, hbus.filterMap closeAnswer, fun _ _ => sourceAt_mono hplat hsrc hacc⟩

end Sys2Proof.Machine
end

section
/-! What READBITS answers, and the source under LOOPBACK (R54, R55): the sink's accepted bytes, pending bits never visible. -/

namespace Sys2Proof.Machine

/-! ### READBITS -/

/-- The range check of READBITS (R101), for a cursor in its range. -/
theorem readRange_iff {s : State} (hs : s.posLegal = true) (n : Nat) :
    s.rPos.toInt + n ≤ Config.posMax ↔ s.rPos.toNat + n < 2 ^ 63 := by
  have hp := (posLegal_iff s).mp hs
  have hpos : s.rPos.toInt = s.rPos.toNat := BitVec.toInt_eq_toNat_of_lt (by omega)
  have htop : Config.posMax = 2 ^ 63 - 1 := rfl
  omega

/-- A READBITS whose reads all succeed (R103, R104). -/
theorem exec_readbits_ok {s : State} {n : Nat} (hf : s.bFatal = false) (hn : n ≤ 64)
    (hp : s.rPos.toNat + n < 2 ^ 63)
    (hr : ∀ j < readCount s.rPos.toNat n, (s.sourceAt (s.rPos.toNat / 8 + j)).isSome) :
    exec (.readbits n) s = .next ((s.afterReads n (readAddrs s.rPos.toNat n)).respond .ok
      (BitVec.ofNat 64 (fieldAt s.sourceAt s.rPos.toNat n))) := by
  have hrange := (readRange_iff ((posLegal_iff s).mpr (by omega)) n).mpr hp
  have hfield := readField_ok (n := n) (s := s) (by omega) hr
  rw [exec_readbits_ready hf hn]
  rcases readBody_cases n s with ⟨hout, -⟩ | ⟨-, v, t, h, hb⟩ | ⟨-, t, h, -⟩
  · omega
  · cases hfield.symm.trans h
    rw [hb]
  · cases hfield.symm.trans h

/-- A READBITS whose first read fails leaves the cursor where it was (R106). -/
theorem exec_readbits_first_fails {s : State} {n : Nat} (hf : s.bFatal = false) (hn : n ≤ 64)
    (hp : s.rPos.toNat + n < 2 ^ 63) (hfail : s.sourceAt (s.rPos.toNat / 8) = none) :
    exec (.readbits n) s =
      .next ((s.afterReads 0 [s.rPos.toNat / 8]).raiseFatal .readFail) := by
  have hrange := (readRange_iff ((posLegal_iff s).mpr (by omega)) n).mpr hp
  have hcount : 0 < readCount s.rPos.toNat n := Nat.lt_of_lt_of_le Nat.one_pos (Nat.le_max_left _ _)
  have hfield := readField_fails (i := 0) (s := s) (by omega) hcount nofun hfail
  rw [exec_readbits_ready hf hn]
  rcases readBody_cases n s with ⟨hout, -⟩ | ⟨-, v, t, h, -⟩ | ⟨-, t, h, hb⟩
  · omega
  · cases hfield.symm.trans h
  · cases hfield.symm.trans h
    rw [hb]
    rfl

/-! ### The source under LOOPBACK -/

theorem sourceAt_of_loopback {s : State} (hl : s.platform.loopback = true) {k : Nat} (hk : k < 2 ^ 60) :
    s.sourceAt k = s.accepted[k]? := by
  have hk' : k < 2 ^ Config.srcAddrWidth := hk
  rw [State.sourceAt, if_pos hk', if_pos hl]

/-- Without LOOPBACK the transactions have no part in the source. -/
theorem sourceAt_of_not_loopback {s t : State} (hp : s.platform = t.platform) (hs : s.source = t.source)
    (hl : t.platform.loopback = false) : s.sourceAt = t.sourceAt := by
  funext a
  simp only [State.sourceAt, hp, hs, hl, Bool.false_eq_true, if_false]

/-- Settles O50: the source is a view of the accepted bytes, and READBITS halts at the first one that is not there. -/
theorem loopbackShowsAcceptedBytesOnly : Obligations.LoopbackShowsAcceptedBytesOnly := by
  refine ⟨fun s k hl hk => sourceAt_of_loopback hl hk, fun s c u => withCache_sourceAt c u s,
    fun s ts hl => sourceAt_of_not_loopback rfl rfl hl, ?_⟩
  rintro s n ⟨hf, hs⟩ hn hrange hl hend
  have hp := (readRange_iff hs n).mp hrange
  have hfail : s.sourceAt (s.rPos.toNat / 8) = none := by
    rw [sourceAt_of_loopback hl (by omega), List.getElem?_eq_none hend]
  exact ⟨_, exec_readbits_first_fails hf hn hp hfail, BitVec.add_zero s.rPos⟩

end Sys2Proof.Machine
end

section
/-! An issued command is performed: the decoder reads back the word and the operand that the encoder gives (R61, R68). -/

namespace Sys2Proof

theorem buildInstr_wf {op : Opcode} {n : Nat} {wh : Whence} {d : Data} (hn : n ≤ 64) :
    (buildInstr op n wh d).wf = true := by
  cases op with
  | writebits => exact decide_eq_true hn
  | readbits => exact decide_eq_true hn
  | flush => rfl
  | close => rfl
  | seek => rfl
  | skip => rfl
  | tell => rfl

/-- What is decoded from an assembled word whose unused fields are 0. -/
theorem decode_assembleCmd {op : Opcode} {n : BitVec 7} {wh : BitVec 2} (d : Data)
    (hn : n.toNat ≤ 64) (hn0 : opcodeUsesN op = false → n = 0) (hwh0 : opcodeUsesWh op = false → wh = 0) :
    decode (assembleCmd (opcodeBits op) n wh) d = .ok (buildInstr op n.toNat (whenceOf wh) d) := by
  have hn' : ¬ (opcodeUsesN op = false ∧ n ≠ 0) := fun ⟨h, hne⟩ => hne (hn0 h)
  have hwh' : ¬ (opcodeUsesWh op = false ∧ wh ≠ 0) := fun ⟨h, hne⟩ => hne (hwh0 h)
  simp only [decode, cmdOp_assembleCmd, opcodeOf_opcodeBits, cmdRsv0_assembleCmd, cmdRsv1_assembleCmd,
    cmdRsv2_assembleCmd, cmdN_assembleCmd, cmdWh_assembleCmd, hn', hwh', buildInstr_wf hn, ne_eq,
    not_true_eq_false, or_self, if_false, if_true]

/-- The width field holds every legal width (R63). -/
theorem widthField_toNat {n : Nat} (h : n ≤ 64) : (BitVec.ofNat 7 n).toNat = n := by
  rw [BitVec.toNat_ofNat, Nat.mod_eq_of_lt (by omega)]

theorem decode_encode {i : Instr} (h : i.wf = true) : decode (encode i).1 (encode i).2 = .ok i := by
  cases i with
  | writebits n value =>
    have hn := widthField_toNat (of_decide_eq_true h)
    refine (decode_assembleCmd (op := .writebits) value (by rw [hn]; exact of_decide_eq_true h) nofun
      fun _ => rfl).trans ?_
    rw [hn]
    rfl
  | readbits n =>
    have hn := widthField_toNat (of_decide_eq_true h)
    refine (decode_assembleCmd (op := .readbits) 0 (by rw [hn]; exact of_decide_eq_true h) nofun
      fun _ => rfl).trans ?_
    rw [hn]
    rfl
  | seek wh offset =>
    refine (decode_assembleCmd (op := .seek) (n := 0) offset (Nat.zero_le 64) (fun _ => rfl) nofun).trans ?_
    rw [whenceOf_whenceBits]
    rfl
  | flush => exact decode_assembleCmd (op := .flush) 0 (Nat.zero_le 64) (fun _ => rfl) fun _ => rfl
  | close => exact decode_assembleCmd (op := .close) 0 (Nat.zero_le 64) (fun _ => rfl) fun _ => rfl
  | skip offset => exact decode_assembleCmd (op := .skip) offset (Nat.zero_le 64) (fun _ => rfl) fun _ => rfl
  | tell => exact decode_assembleCmd (op := .tell) 0 (Nat.zero_le 64) (fun _ => rfl) fun _ => rfl

end Sys2Proof

namespace Sys2Proof.Machine

/-- The step that takes an issued command (R68) performs it. -/
theorem step_issue {s : State} {i : Instr} {rest : List HostEvent} (hi : i.wf = true)
    (h : s.host = issue i :: rest) : step s = exec i (s.withHost rest) :=
  stepRunsTheDecodedCommand s _ _ rest i h (decode_encode hi)

end Sys2Proof.Machine
end

section
/-! The writer's commands on the bit stream (R82 to R85): what a WRITEBITS appends, and what a FLUSH makes of the rest. -/

namespace Sys2Proof.Machine

/-! ### Bytes as bits -/

theorem bitsOf_zero (w : Nat) : bitsOf w 0 = List.replicate w false := by
  rw [bitsOf, List.eq_replicate_iff]
  simp

/-- The bits a list of bytes spells. -/
def byteBits (bs : List Byte) : List Bool := bs.flatMap fun b => bitsOf 8 b.toNat

theorem byteBits_append (bs cs : List Byte) : byteBits (bs ++ cs) = byteBits bs ++ byteBits cs :=
  List.flatMap_append

theorem byteBits_length (bs : List Byte) : (byteBits bs).length = 8 * bs.length := by
  induction bs with
  | nil => rfl
  | cons b bs ih =>
    rw [← List.singleton_append, byteBits_append, List.length_append, ih, List.length_append,
      Nat.mul_add]
    congr 1

theorem writerStream_eq (s : State) :
    s.writerStream = byteBits s.accepted ++ bitsOf s.wUsed.toNat s.wCache.toNat := rfl

theorem writerStream_of_used_zero {s : State} (h : s.wUsed = 0) : s.writerStream = byteBits s.accepted := by
  rw [writerStream_eq, h]
  exact List.append_nil _

/-- The padded byte spells the pending bits, then zeros (R85). -/
theorem bitsOf_padded (cache : Byte) {u : Nat} (h : u ≤ 8) :
    bitsOf 8 (padded cache u).toNat = bitsOf u cache.toNat ++ List.replicate (8 - u) false := by
  have hjoin := bitsOf_join u (8 - u) (cache.toNat % 2 ^ u) 0
  rw [Nat.zero_mod, Nat.add_zero, bitsOf_mod, bitsOf_zero, Nat.add_sub_cancel' h] at hjoin
  rw [padded_eq cache h, BitVec.toNat_ofNat, bitsOf_mod, Nat.shiftLeft_eq, hjoin]

/-! ### Writer commands that answer OK -/

/-- From `s` to `t` writer commands have answered OK, one response for each of `r`, and `bits` have been added to the writer
stream: a byte was emitted whenever the cache was full, and what the host and the reader see is as before. -/
structure Wrote (r : Nat) (bits : List Bool) (s t : State) : Prop where
  bFatal : t.bFatal = s.bFatal
  wErr : t.wErr = s.wErr
  rPos : t.rPos = s.rPos
  platform : t.platform = s.platform
  responses : t.responses = s.responses ++ List.replicate r (some { status := .ok, result := 0 })
  stream : t.writerStream = s.writerStream ++ bits
  used : t.wUsed.toNat = (s.wUsed.toNat + bits.length) % 8
  answerAt : ∀ k, t.answerAt k = s.answerAt ((s.wUsed.toNat + bits.length) / 8 + k)

theorem Wrote.refl {s : State} (h : s.wUsed.toNat ≤ 7) : Wrote 0 [] s s where
  bFatal := rfl
  wErr := rfl
  rPos := rfl
  platform := rfl
  responses := (List.append_nil _).symm
  stream := (List.append_nil _).symm
  used := by rw [List.length_nil]; omega
  answerAt k := by rw [List.length_nil, Nat.add_zero, Nat.div_eq_of_lt (by omega), Nat.zero_add]

theorem Wrote.trans {r r' : Nat} {bits bits' : List Bool} {s t u : State} (h1 : Wrote r bits s t)
    (h2 : Wrote r' bits' t u) : Wrote (r + r') (bits ++ bits') s u where
  bFatal := h2.bFatal.trans h1.bFatal
  wErr := h2.wErr.trans h1.wErr
  rPos := h2.rPos.trans h1.rPos
  platform := h2.platform.trans h1.platform
  responses := by rw [h2.responses, h1.responses, List.replicate_add, List.append_assoc]
  stream := by rw [h2.stream, h1.stream, List.append_assoc]
  used := by
    rw [h2.used, h1.used, List.length_append]
    omega
  answerAt k := by
    rw [h2.answerAt, h1.answerAt, h1.used, List.length_append]
    congr 1
    omega

/-- The bytes a WRITEBITS emits and the bits it leaves pending spell the pending bits and the field (R82). -/
theorem bitsOf_emittedBytes (s : State) (n : Nat) (value : Data) :
    byteBits (emittedBytes s n value (emitCount s n)) ++
        bitsOf ((s.wUsed.toNat + n) % 8) (joined s n value) =
      bitsOf s.wUsed.toNat s.wCache.toNat ++ bitsOf n value.toNat := by
  have hlen : 8 * ((s.wUsed.toNat + n) / 8) + (s.wUsed.toNat + n) % 8 = s.wUsed.toNat + n :=
    Nat.div_add_mod _ 8
  have hbytes := bitsOf_bytes ((s.wUsed.toNat + n) / 8) ((s.wUsed.toNat + n) % 8) (joined s n value)
  rw [hlen, joined_eq, bitsOf_join, State.pending, bitsOf_mod] at hbytes
  exact hbytes

theorem afterWrites_answerAt (bs : List Byte) (s : State) (k : Nat) :
    (s.afterWrites bs).answerAt k = s.answerAt (bs.length + k) :=
  answerAt_answersDrawn bs.length k s

theorem emittedBytes_length (s : State) (n : Nat) (value : Data) (k : Nat) :
    (emittedBytes s n value k).length = k := by
  rw [emittedBytes, List.length_map, List.length_range]

/-- A WRITEBITS whose sink writes all succeed (R82). -/
theorem exec_writebits_ok {s : State} {n : Nat} (value : Data) (hs : s.WriterReady) (hn : n ≤ 64)
    (hok : ∀ k < emitCount s n, s.answerAt k = .ok) :
    ∃ (c : Byte) (u : BitVec 4),
      exec (.writebits n value) s =
        .next (((s.afterWrites (emittedBytes s n value (emitCount s n))).withCache c u).respond .ok 0) ∧
      u.toNat = (s.wUsed.toNat + n) % 8 ∧
      c.toNat % 2 ^ u.toNat = joined s n value % 2 ^ u.toNat := by
  obtain ⟨hf, he, hu⟩ := hs
  obtain ⟨c, u, hloop, hused, hcache⟩ := writeLoop_ok (v := value.toNat) hu (Nat.lt_succ_self n) hok
  refine ⟨c, u, ?_, hused, hcache⟩
  rw [exec_writebits_ready value hf he hn, hloop]
  rfl

/-- Such a WRITEBITS adds its field to the writer stream (R83). -/
theorem exec_writebits_wrote {s : State} {n : Nat} (value : Data) (hs : s.WriterReady) (hn : n ≤ 64)
    (hok : ∀ k < emitCount s n, s.answerAt k = .ok) :
    ∃ t, exec (.writebits n value) s = .next t ∧ t.host = s.host ∧
      Wrote 1 (bitsOf n value.toNat) s t := by
  obtain ⟨c, u, hexec, hused, hcache⟩ := exec_writebits_ok value hs hn hok
  refine ⟨_, hexec, rfl, ⟨rfl, rfl, rfl, rfl, rfl, ?_, ?_, fun k => ?_⟩⟩
  · have hpend : bitsOf u.toNat c.toNat = bitsOf ((s.wUsed.toNat + n) % 8) (joined s n value) := by
      rw [← bitsOf_mod, hcache, bitsOf_mod, hused]
    rw [writerStream_eq, respond_accepted, withCache_accepted, afterWrites_accepted, byteBits_append,
      respond_wUsed, respond_wCache, withCache_wUsed, withCache_wCache, hpend, List.append_assoc,
      bitsOf_emittedBytes, writerStream_eq, List.append_assoc]
  · rw [bitsOf_length]
    exact hused
  · rw [respond_answerAt, withCache_answerAt, afterWrites_answerAt, emittedBytes_length, bitsOf_length]
    rfl

/-- From `s` to `t` writer commands have answered OK, one response for each of `r`, and the sink's bytes now spell `bits`; what
the host and the reader see is as before. -/
structure Spelled (r : Nat) (bits : List Bool) (s t : State) : Prop where
  bFatal : t.bFatal = s.bFatal
  rPos : t.rPos = s.rPos
  platform : t.platform = s.platform
  responses : t.responses = s.responses ++ List.replicate r (some { status := .ok, result := 0 })
  accepted : byteBits t.accepted = bits

theorem Wrote.trans_spelled {r r' : Nat} {bits bits' : List Bool} {s t u : State} (h1 : Wrote r bits s t)
    (h2 : Spelled r' bits' t u) : Spelled (r + r') bits' s u where
  bFatal := h2.bFatal.trans h1.bFatal
  rPos := h2.rPos.trans h1.rPos
  platform := h2.platform.trans h1.platform
  responses := by rw [h2.responses, h1.responses, List.replicate_add, List.append_assoc]
  accepted := h2.accepted

/-- The zero bits a FLUSH adds to a stream of `len` bits (R84). -/
def flushPad (len : Nat) : List Bool := List.replicate ((8 - len % 8) % 8) false

/-- A FLUSH whose write succeeds leaves the sink with the writer stream, zero bits added up to a whole byte (R84, R85). -/
theorem exec_flush_spelled {s : State} (hs : s.WriterReady) (hok : s.wUsed ≠ 0 → s.answerAt 0 = .ok) :
    ∃ t, exec .flush s = .next t ∧ t.host = s.host ∧
      Spelled 1 (s.writerStream ++ flushPad s.wUsed.toNat) s t := by
  obtain ⟨hf, he, hu⟩ := hs
  rw [exec_flush_ready hf he, flushPad, Nat.mod_eq_of_lt (by omega : s.wUsed.toNat < 8)]
  by_cases h0 : s.wUsed = 0
  · rw [flushBody_none h0]
    refine ⟨_, rfl, rfl, ⟨rfl, rfl, rfl, rfl, ?_⟩⟩
    rw [respond_accepted, writerStream_of_used_zero h0, h0]
    exact (List.append_nil _).symm
  · have hpos : s.wUsed.toNat ≠ 0 := fun h => h0 (BitVec.eq_of_toNat_eq h)
    have hbyte : byteBits [padded s.wCache s.wUsed.toNat] = _ :=
      (List.append_nil _).trans (bitsOf_padded s.wCache (by omega))
    rw [flushBody_ok h0 (hok h0)]
    refine ⟨_, rfl, rfl, ⟨rfl, rfl, rfl, rfl, ?_⟩⟩
    rw [respond_accepted, withCache_accepted, afterWrites_accepted, byteBits_append, hbyte,
      writerStream_eq, List.append_assoc, Nat.mod_eq_of_lt (by omega : 8 - s.wUsed.toNat < 8)]

/-! ### A write session -/

/-- The bits of a list of fields, one after the other (R83). -/
def fieldBits (fs : List (Nat × Data)) : List Bool := fs.flatMap fun f => bitsOf f.1 f.2.toNat

theorem fieldBits_cons (f : Nat × Data) (fs : List (Nat × Data)) :
    fieldBits (f :: fs) = bitsOf f.1 f.2.toNat ++ fieldBits fs := List.flatMap_cons

theorem totalBits_cons (f : Nat × Data) (fs : List (Nat × Data)) :
    totalBits (f :: fs) = f.1 + totalBits fs := by
  rw [totalBits, List.map_cons, List.sum_cons, totalBits]

theorem fieldBits_length (fs : List (Nat × Data)) : (fieldBits fs).length = totalBits fs := by
  induction fs with
  | nil => rfl
  | cons f fs ih => rw [fieldBits_cons, List.length_append, bitsOf_length, ih, totalBits_cons]

/-- The step of an issued WRITEBITS whose sink writes all succeed. -/
theorem step_writebits_wrote {s : State} {n : Nat} {value : Data} {rest : List HostEvent}
    (hhost : s.host = issue (.writebits n value) :: rest) (hs : s.WriterReady) (hn : n ≤ 64)
    (hok : ∀ k < emitCount s n, s.answerAt k = .ok) :
    ∃ t : State, step s = .next t ∧ t.host = rest ∧ Wrote 1 (bitsOf n value.toNat) s t := by
  have hwf : (Instr.writebits n value).wf = true := decide_eq_true hn
  obtain ⟨t, hexec, hthost, h⟩ := exec_writebits_wrote (s := s.withHost rest) value hs hn hok
  exact ⟨t, (step_issue hwf hhost).trans hexec, hthost,
    ⟨h.bFatal, h.wErr, h.rPos, h.platform, h.responses, h.stream, h.used, h.answerAt⟩⟩

/-- The step of an issued FLUSH whose write succeeds. -/
theorem step_flush_spelled {s : State} {rest : List HostEvent} (hhost : s.host = issue .flush :: rest)
    (hs : s.WriterReady) (hok : s.wUsed ≠ 0 → s.answerAt 0 = .ok) :
    ∃ t : State, step s = .next t ∧ t.host = rest ∧
      Spelled 1 (s.writerStream ++ flushPad s.wUsed.toNat) s t := by
  obtain ⟨t, hexec, hthost, h⟩ := exec_flush_spelled (s := s.withHost rest) hs hok
  exact ⟨t, (step_issue rfl hhost).trans hexec, hthost,
    ⟨h.bFatal, h.rPos, h.platform, h.responses, h.accepted⟩⟩

/-- One WRITEBITS for each field, every sink write succeeding: the fields are added to the writer stream (R83). -/
theorem run_writebits {fs : List (Nat × Data)} {rest : List HostEvent} {s : State}
    (hhost : s.host = fs.map (fun f => issue (.writebits f.1 f.2)) ++ rest) (hs : s.WriterReady)
    (hw : ∀ f ∈ fs, f.1 ≤ 64) (hok : ∀ k < (s.wUsed.toNat + totalBits fs) / 8, s.answerAt k = .ok) :
    ∃ t : State, Sys2Proof.core.run fs.length s = .next t ∧ t.host = rest ∧
      Wrote fs.length (fieldBits fs) s t := by
  obtain ⟨hf, he, hu⟩ := hs
  induction fs generalizing s with
  | nil => exact ⟨s, rfl, hhost, Wrote.refl hu⟩
  | cons f fs ih =>
    rw [totalBits_cons] at hok
    obtain ⟨t, hstep, hthost, ht⟩ := step_writebits_wrote hhost ⟨hf, he, hu⟩ (hw f List.mem_cons_self)
      (fun k hk => hok k (by simp only [emitCount] at hk; omega))
    have hused := ht.used
    have hanswer := ht.answerAt
    rw [bitsOf_length] at hused hanswer
    obtain ⟨u, hrun, huhost, hu⟩ := ih hthost (fun g hg => hw g (List.mem_cons_of_mem _ hg))
      (fun k hk => (hanswer k).trans (hok _ (by omega)))
      (ht.bFatal.trans hf) (ht.wErr.trans he) (by omega)
    refine ⟨u, (run_succ hstep).trans hrun, huhost, ?_⟩
    rw [List.length_cons, Nat.add_comm, fieldBits_cons]
    exact ht.trans hu

/-- A write session from a writer with nothing pending (R83, R145): the sink receives the fields' bits, then zero bits up to a
whole byte, and every command answers OK. -/
theorem run_writeSession {fs : List (Nat × Data)} {rest : List HostEvent} {s : State}
    (hhost : s.host = writeSession fs ++ rest) (hf : s.bFatal = false) (he : s.wErr = false)
    (hu : s.wUsed = 0) (hw : ∀ f ∈ fs, f.1 ≤ 64)
    (hok : ∀ k < (totalBits fs + 7) / 8, s.answerAt k = .ok) :
    ∃ t : State, Sys2Proof.core.run (fs.length + 1) s = .next t ∧ t.host = rest ∧
      Spelled (fs.length + 1) (byteBits s.accepted ++ fieldBits fs ++ flushPad (totalBits fs)) s t := by
  have hu0 : s.wUsed.toNat = 0 := by rw [hu]; rfl
  rw [writeSession, List.append_assoc] at hhost
  obtain ⟨t, hrun, hthost, ht⟩ := run_writebits hhost ⟨hf, he, by omega⟩ hw
    (fun k hk => hok k (by omega))
  have hused := ht.used
  have hanswer := ht.answerAt 0
  rw [fieldBits_length, hu0, Nat.zero_add] at hused hanswer
  obtain ⟨u, hstep, huhost, hflush⟩ := step_flush_spelled hthost
    ⟨ht.bFatal.trans hf, ht.wErr.trans he, by omega⟩
    (fun hne => by
      have hpos : t.wUsed.toNat ≠ 0 := fun h => hne (BitVec.eq_of_toNat_eq h)
      exact hanswer.trans (hok _ (by omega)))
  have hstream : t.writerStream = byteBits s.accepted ++ fieldBits fs := by
    rw [ht.stream, writerStream_of_used_zero hu]
  have hpad : flushPad t.wUsed.toNat = flushPad (totalBits fs) := by
    rw [hused, flushPad, Nat.mod_mod, flushPad]
  rw [hstream, hpad] at hflush
  exact ⟨u, (run_add hrun).trans (run_succ hstep), huhost, ht.trans_spelled hflush⟩

end Sys2Proof.Machine
end

section
/-! The round trip through a LOOPBACK (R54, R83, R103, R148): what is written, flushed and read back is as it was. -/

namespace Sys2Proof.Machine

/-! ### The source's bits under LOOPBACK -/

section Loopback

variable {s : State} {p : Nat} (hl : s.platform.loopback = true) (hp : p < 2 ^ 63)
include hl hp

/-- Below the end of the sink's bits there is a byte to read. -/
theorem sourceAt_isSome_of_loopback (hlen : p < (byteBits s.accepted).length) :
    (s.sourceAt (p / 8)).isSome := by
  rw [byteBits_length] at hlen
  rw [sourceAt_of_loopback hl (by omega), List.getElem?_eq_getElem (by omega)]
  rfl

/-- The source's stream bits are the sink's bits (R10, R54). -/
theorem streamBit_of_loopback {x : Bool} (h : (byteBits s.accepted)[p]? = some x) :
    decide (streamBit s.sourceAt p = 1) = x := by
  obtain ⟨hlt, -⟩ := List.getElem?_eq_some_iff.mp h
  obtain ⟨b, hb⟩ := Option.isSome_iff_exists.mp (sourceAt_isSome_of_loopback hl hp hlt)
  have hbit := bytes_bit ((sourceAt_of_loopback hl (by omega)).symm.trans hb)
  have hx : b.getLsbD (7 - p % 8) = x := Option.some.inj (hbit.symm.trans h)
  simp only [streamBit, hb, hx]
  cases x <;> rfl

end Loopback

/-- Where the sink's bits spell a field, the source holds it (R103). -/
theorem fieldAt_of_loopback {s : State} {n v : Nat} {before after : List Bool}
    (hl : s.platform.loopback = true) (hp : before.length + n < 2 ^ 63)
    (h : byteBits s.accepted = before ++ (bitsOf n v ++ after)) :
    fieldAt s.sourceAt before.length n = v % 2 ^ n := by
  refine bitsOf_inj (fieldAt_lt _ _ _) (Nat.mod_lt _ (by positivity)) ?_
  rw [bitsOf_mod, bitsOf_fieldAt]
  apply List.ext_getElem
  · rw [List.length_map, List.length_range, bitsOf_length]
  · intro i _ hi
    rw [List.getElem_map, List.getElem_range]
    refine streamBit_of_loopback hl (by rw [bitsOf_length] at hi; omega) ?_
    rw [h, List.getElem?_append_right (Nat.le_add_right _ _), Nat.add_sub_cancel_left,
      List.getElem?_append_left hi, List.getElem?_eq_getElem hi]

/-! ### A read session -/

/-- The step of an issued READBITS of at least one bit, where the sink's bits at the cursor spell a field. -/
theorem step_readbits_loopback {s : State} {n v : Nat} {rest : List HostEvent} {before after : List Bool}
    (hhost : s.host = issue (.readbits n) :: rest) (hf : s.bFatal = false)
    (hl : s.platform.loopback = true) (hn1 : 1 ≤ n) (hn : n ≤ 64) (hpos : s.rPos.toNat = before.length)
    (hp : before.length + n < 2 ^ 63) (h : byteBits s.accepted = before ++ (bitsOf n v ++ after)) :
    ∃ t : State, step s = .next t ∧ t.host = rest ∧ t.bFatal = false ∧ t.platform = s.platform ∧
      t.accepted = s.accepted ∧ t.rPos.toNat = s.rPos.toNat + n ∧
      t.responses = s.responses ++ [some { status := .ok, result := BitVec.ofNat 64 (v % 2 ^ n) }] := by
  have hlen : before.length + n ≤ (byteBits s.accepted).length := by
    rw [h, List.length_append, List.length_append, bitsOf_length]
    omega
  have hreads : ∀ j < readCount s.rPos.toNat n, (s.sourceAt (s.rPos.toNat / 8 + j)).isSome := by
    intro j hj
    have hlast : 8 * (s.rPos.toNat / 8 + j) < before.length + n := by
      rw [readCount] at hj
      omega
    have hread := sourceAt_isSome_of_loopback (p := 8 * (s.rPos.toNat / 8 + j)) hl (by omega) (by omega)
    rwa [Nat.mul_div_cancel_left _ (by omega)] at hread
  have hexec := exec_readbits_ok (s := s.withHost rest) hf hn (hpos ▸ hp) hreads
  have hwf : (Instr.readbits n).wf = true := decide_eq_true hn
  refine ⟨_, (step_issue hwf hhost).trans hexec, rfl, hf, rfl, ?_, ?_, ?_⟩
  · rw [respond_accepted, afterReads_accepted, withHost_accepted]
  · rw [respond_rPos, afterReads_pos _ (by rw [withHost_rPos]; omega), withHost_rPos]
  · rw [respond_responses, afterReads_responses, withHost_responses, withHost_sourceAt, withHost_rPos,
      hpos, fieldAt_of_loopback hl hp h]

/-- One READBITS for each field that the sink's bits spell from the cursor on: the values come back. -/
theorem run_readSession {fs : List (Nat × Data)} {s : State} {before after : List Bool}
    (hhost : s.host = readSession fs) (hf : s.bFatal = false) (hl : s.platform.loopback = true)
    (hw : ∀ f ∈ fs, 1 ≤ f.1 ∧ f.1 ≤ 64) (hpos : s.rPos.toNat = before.length)
    (hp : before.length + totalBits fs < 2 ^ 63)
    (h : byteBits s.accepted = before ++ (fieldBits fs ++ after)) :
    ∃ t : State, Sys2Proof.core.run fs.length s = .next t ∧
      t.responses = s.responses ++
        fs.map (fun f => some { status := .ok, result := BitVec.ofNat 64 (f.2.toNat % 2 ^ f.1) }) ∧
      t.rPos.toNat = s.rPos.toNat + totalBits fs := by
  induction fs generalizing s before with
  | nil => exact ⟨s, rfl, (List.append_nil _).symm, rfl⟩
  | cons f fs ih =>
    obtain ⟨hf1, hf64⟩ := hw f List.mem_cons_self
    rw [totalBits_cons] at hp
    rw [fieldBits_cons, List.append_assoc] at h
    obtain ⟨t, hstep, hthost, htf, htplat, htacc, htpos, htresp⟩ :=
      step_readbits_loopback hhost hf hl hf1 hf64 hpos (by omega) h
    obtain ⟨u, hrun, huresp, hupos⟩ := @ih t (before ++ bitsOf f.1 f.2.toNat) hthost htf
      (by rw [htplat, hl]) (fun g hg => hw g (List.mem_cons_of_mem _ hg))
      (by rw [htpos, hpos, List.length_append, bitsOf_length])
      (by rw [List.length_append, bitsOf_length]; omega)
      (by rw [htacc, h, List.append_assoc])
    refine ⟨u, (run_succ hstep).trans hrun, ?_, ?_⟩
    · rw [huresp, htresp, List.append_assoc, List.singleton_append, List.map_cons]
    · rw [hupos, htpos, totalBits_cons, Nat.add_assoc]

/-- Settles O53: the write session leaves the sink with the fields' bits (`run_writeSession`), which under LOOPBACK the read
session finds from the old end on (`run_readSession`). -/
theorem roundTripThroughLoopback : Obligations.RoundTripThroughLoopback := by
  intro s fs hf he hu hl hpos hw hp hok
  obtain ⟨t, hwrite, hthost, ht⟩ := run_writeSession (s := s.withHost (writeSession fs ++ readSession fs))
    rfl hf he hu (fun f hf => (hw f hf).2) hok
  have hbefore : s.rPos.toNat = (byteBits s.accepted).length := by rw [byteBits_length, hpos]
  have hbits := ht.accepted
  rw [withHost_accepted, List.append_assoc] at hbits
  obtain ⟨u, hread, huresp, hupos⟩ := run_readSession hthost (ht.bFatal.trans hf)
    ((congrArg Platform.loopback ht.platform).trans hl) hw
    ((congrArg BitVec.toNat ht.rPos).trans hbefore) (hbefore ▸ hp) hbits
  refine ⟨u, (run_add hwrite).trans hread, ?_, ?_⟩
  · rw [huresp, ht.responses, withHost_responses]
  · rw [hupos, ht.rPos, withHost_rPos]

end Sys2Proof.Machine
end

section
/-! The family of 30_encoding.md: which words are legal (R61, R64, R65), that the decoder and the encoder agree (R68), and what
of DATA a command reads (R62, R70). -/

namespace Sys2Proof

/-! ### A command word and its six fields -/

/-- The six fields of R61 are all of the word. -/
theorem fields_append (c : Cmd) :
    (cmdRsv2 c ++ cmdWh c ++ cmdRsv1 c ++ cmdN c ++ cmdRsv0 c ++ cmdOp c : BitVec (14 + 2 + 1 + 7 + 4 + 4)) = c := by
  unfold cmdRsv2 cmdWh cmdRsv1 cmdN cmdRsv0 cmdOp
  iterate 5 rw [BitVec.extractLsb'_append_extractLsb'_eq_extractLsb' (by decide)]
  exact BitVec.extractLsb'_eq_self

theorem cmd_eq_iff_fields {c c' : Cmd} :
    c = c' ↔ cmdOp c = cmdOp c' ∧ cmdRsv0 c = cmdRsv0 c' ∧ cmdN c = cmdN c' ∧ cmdRsv1 c = cmdRsv1 c' ∧
      cmdWh c = cmdWh c' ∧ cmdRsv2 c = cmdRsv2 c' := by
  constructor
  · rintro rfl
    exact ⟨rfl, rfl, rfl, rfl, rfl, rfl⟩
  · rintro ⟨hop, h0, hn, h1, hwh, h2⟩
    rw [← fields_append c, ← fields_append c', hop, h0, hn, h1, hwh, h2]

/-- What R65 asks of the fields of a word whose opcode is `op`. -/
structure LegalFields (c : Cmd) (op : Opcode) : Prop where
  opcode : cmdOp c = opcodeBits op
  rsv0 : cmdRsv0 c = 0
  rsv1 : cmdRsv1 c = 0
  rsv2 : cmdRsv2 c = 0
  unusedWidth : opcodeUsesN op = false → cmdN c = 0
  unusedWhence : opcodeUsesWh op = false → cmdWh c = 0
  width : opcodeUsesN op = true → (cmdN c).toNat ≤ 64

theorem opcodeOf_eq_some_iff {b : BitVec 4} {op : Opcode} : opcodeOf b = some op ↔ b = opcodeBits op :=
  ⟨fun h => (opcodeBits_of_opcodeOf h).symm, fun h => h ▸ opcodeOf_opcodeBits op⟩

namespace LegalFields

variable {c : Cmd} {op : Opcode}

/-- An unused width is 0, a used one is at most 64. -/
theorem width_le (h : LegalFields c op) : (cmdN c).toNat ≤ 64 := by
  cases hN : opcodeUsesN op with
  | true => exact h.width hN
  | false => simp [h.unusedWidth hN]

theorem eq_assembleCmd (h : LegalFields c op) : c = assembleCmd (opcodeBits op) (cmdN c) (cmdWh c) := by
  rw [← h.opcode, assembleCmd_fields h.rsv0 h.rsv1 h.rsv2]

theorem decode_eq (h : LegalFields c op) (d : Data) :
    decode c d = .ok (buildInstr op (cmdN c).toNat (whenceOf (cmdWh c)) d) := by
  conv => lhs; rw [h.eq_assembleCmd]
  exact decode_assembleCmd d h.width_le h.unusedWidth h.unusedWhence

end LegalFields

/-! ### The words that decode -/

theorem buildInstr_wf_iff {op : Opcode} {n : Nat} {wh : Whence} {d : Data} :
    (buildInstr op n wh d).wf = true ↔ (opcodeUsesN op = true → n ≤ 64) := by
  cases op with
  | writebits => exact decide_eq_true_iff.trans ⟨fun h _ => h, fun h => h rfl⟩
  | readbits => exact decide_eq_true_iff.trans ⟨fun h _ => h, fun h => h rfl⟩
  | flush => exact ⟨fun _ => nofun, fun _ => rfl⟩
  | close => exact ⟨fun _ => nofun, fun _ => rfl⟩
  | seek => exact ⟨fun _ => nofun, fun _ => rfl⟩
  | skip => exact ⟨fun _ => nofun, fun _ => rfl⟩
  | tell => exact ⟨fun _ => nofun, fun _ => rfl⟩

/-- The words that decode are those with legal fields, and what they decode to is made of the fields (R61, R62, R65). -/
theorem decode_eq_ok_iff {c : Cmd} {d : Data} {i : Instr} :
    decode c d = .ok i ↔
      ∃ op, LegalFields c op ∧ i = buildInstr op (cmdN c).toNat (whenceOf (cmdWh c)) d := by
  constructor
  · intro h
    unfold decode at h
    split at h
    · cases h
    next op hop =>
      split at h
      · cases h
      next hrsv =>
      split at h
      · cases h
      next hN =>
      split at h
      · cases h
      next hWh =>
      dsimp only at h
      split at h
      next hwf =>
        cases h
        simp only [not_or, not_and, not_not] at hrsv hN hWh
        obtain ⟨h0, h1, h2⟩ := hrsv
        exact ⟨op, ⟨opcodeOf_eq_some_iff.mp hop, h0, h1, h2, hN, hWh, buildInstr_wf_iff.mp hwf⟩, rfl⟩
      · cases h
  · rintro ⟨op, hc, rfl⟩
    exact hc.decode_eq d

/-! ### The rows of the match and mask table -/

theorem exists_row (op : Opcode) : ∃ row ∈ commandTable, row.1 = op := by
  cases op <;> decide

/-- Every row's match is its opcode, the other fields 0. -/
theorem row_match : ∀ row ∈ commandTable,
    cmdOp row.2.1 = opcodeBits row.1 ∧ cmdRsv0 row.2.1 = 0 ∧ cmdN row.2.1 = 0 ∧ cmdRsv1 row.2.1 = 0 ∧
      cmdWh row.2.1 = 0 ∧ cmdRsv2 row.2.1 = 0 := by
  decide

/-- Every row's mask covers all fields but those its command uses. -/
theorem row_mask : ∀ row ∈ commandTable,
    cmdOp row.2.2 = BitVec.allOnes 4 ∧ cmdRsv0 row.2.2 = BitVec.allOnes 4 ∧
      cmdN row.2.2 = (if opcodeUsesN row.1 then 0 else BitVec.allOnes 7) ∧ cmdRsv1 row.2.2 = BitVec.allOnes 1 ∧
      cmdWh row.2.2 = (if opcodeUsesWh row.1 then 0 else BitVec.allOnes 2) ∧
      cmdRsv2 row.2.2 = BitVec.allOnes 14 := by
  decide

/-- A field masked when its command does not use it reads 0 exactly when it is 0 or is used. -/
theorem and_unlessUsed_eq_zero_iff {w : Nat} (x : BitVec w) (used : Bool) :
    x &&& (if used then 0 else BitVec.allOnes w) = 0 ↔ (used = false → x = 0) := by
  cases used <;> simp

/-- A word matches a row and meets the row's condition exactly when its fields are legal for the row's opcode. -/
theorem row_matches_iff {row : Opcode × Cmd × Cmd} (hrow : row ∈ commandTable) (c : Cmd) :
    c &&& row.2.2 = row.2.1 ∧ (opcodeUsesN row.1 = true → (cmdN c).toNat ≤ 64) ↔ LegalFields c row.1 := by
  obtain ⟨top, t0, tn, t1, twh, t2⟩ := row_match row hrow
  obtain ⟨kop, k0, kn, k1, kwh, k2⟩ := row_mask row hrow
  have hmatch : c &&& row.2.2 = row.2.1 ↔ cmdOp c = opcodeBits row.1 ∧ cmdRsv0 c = 0 ∧
      (opcodeUsesN row.1 = false → cmdN c = 0) ∧ cmdRsv1 c = 0 ∧
      (opcodeUsesWh row.1 = false → cmdWh c = 0) ∧ cmdRsv2 c = 0 := by
    rw [cmd_eq_iff_fields, top, t0, tn, t1, twh, t2, ← and_unlessUsed_eq_zero_iff,
      ← and_unlessUsed_eq_zero_iff, ← kn, ← kwh]
    simp only [cmdOp, cmdRsv0, cmdN, cmdRsv1, cmdWh, cmdRsv2, BitVec.extractLsb'_and] at kop k0 k1 k2 ⊢
    rw [kop, k0, k1, k2]
    simp only [BitVec.and_allOnes]
  rw [hmatch]
  exact ⟨fun ⟨⟨hop, h0, hn, h1, hwh, h2⟩, hle⟩ => ⟨hop, h0, h1, h2, hn, hwh, hle⟩,
    fun h => ⟨⟨h.opcode, h.rsv0, h.unusedWidth, h.rsv1, h.unusedWhence, h.rsv2⟩, h.width⟩⟩

/-- The table's words (R64) are those with legal fields. -/
theorem legalWord_iff {c : Cmd} : legalWord c = true ↔ ∃ op, LegalFields c op := by
  have hany : legalWord c = true ↔ ∃ row ∈ commandTable, LegalFields c row.1 := by
    rw [legalWord, List.any_eq_true]
    refine exists_congr fun row => and_congr_right fun hrow => ?_
    rw [← row_matches_iff hrow]
    cases opcodeUsesN row.1 <;> simp
  rw [hany]
  constructor
  · rintro ⟨row, -, h⟩
    exact ⟨row.1, h⟩
  · rintro ⟨op, h⟩
    obtain ⟨row, hrow, rfl⟩ := exists_row op
    exact ⟨row, hrow, h⟩

theorem legalWord_eq_false_of {c : Cmd} (h : ∀ op, ¬ LegalFields c op) : legalWord c = false := by
  rw [Bool.eq_false_iff, Ne, legalWord_iff]
  exact fun ⟨op, hop⟩ => h op hop

/-- A word whose opcode is `op` is illegal if its fields are not legal for `op`. -/
theorem legalWord_eq_false_of_opcode {c : Cmd} {op : Opcode} (hop : opcodeOf (cmdOp c) = some op)
    (h : ¬ LegalFields c op) : legalWord c = false := by
  refine legalWord_eq_false_of fun op' h' => h ?_
  rw [h'.opcode, opcodeOf_opcodeBits] at hop
  exact Option.some.inj hop ▸ h'

/-! ### The encoder on what is decoded -/

/-- The word of a command made of legal fields is put together from them. -/
theorem encode_buildInstr {op : Opcode} {n : BitVec 7} {wh : BitVec 2} (d : Data)
    (hn : opcodeUsesN op = false → n = 0) (hwh : opcodeUsesWh op = false → wh = 0) :
    (encode (buildInstr op n.toNat (whenceOf wh) d)).1 = assembleCmd (opcodeBits op) n wh := by
  cases op with
  | writebits => rw [hwh rfl, buildInstr, encode, BitVec.ofNat_toNat, BitVec.setWidth_eq]
  | readbits => rw [hwh rfl, buildInstr, encode, BitVec.ofNat_toNat, BitVec.setWidth_eq]
  | seek => rw [hn rfl, buildInstr, encode, whenceBits_whenceOf]
  | flush => rw [hn rfl, hwh rfl]; rfl
  | close => rw [hn rfl, hwh rfl]; rfl
  | skip => rw [hn rfl, hwh rfl]; rfl
  | tell => rw [hn rfl, hwh rfl]; rfl

theorem encode_buildInstr_data {op : Opcode} {n : Nat} {wh : Whence} {d : Data}
    (h : (buildInstr op n wh d).usesData = true) : (encode (buildInstr op n wh d)).2 = d := by
  cases op with
  | writebits => rfl
  | seek => rfl
  | skip => rfl
  | flush => cases h
  | close => cases h
  | readbits => cases h
  | tell => cases h

/-- A command that does not read DATA is made without it. -/
theorem buildInstr_congr_data {op : Opcode} {n : Nat} {wh : Whence} {d : Data} (d' : Data)
    (h : (buildInstr op n wh d).usesData = false) : buildInstr op n wh d' = buildInstr op n wh d := by
  cases op with
  | flush => rfl
  | close => rfl
  | readbits => rfl
  | tell => rfl
  | writebits => cases h
  | seek => cases h
  | skip => cases h

/-! ### Decoder, encoder and table agree -/

/-- Settles O1: `decode_encode`, which reads the fields of the assembled word back one by one. -/
theorem encodedCommandsDecodeBack : Obligations.EncodedCommandsDecodeBack :=
  fun _ => decode_encode

/-- Settles O2: a word that decodes has legal fields, and the encoder puts the word together from them again. -/
theorem decodedCommandsEncodeBack : Obligations.DecodedCommandsEncodeBack := by
  intro c d i h
  obtain ⟨op, hc, rfl⟩ := decode_eq_ok_iff.mp h
  refine ⟨buildInstr_wf hc.width_le, ?_, encode_buildInstr_data⟩
  rw [encode_buildInstr d hc.unusedWidth hc.unusedWhence, ← hc.eq_assembleCmd]

/-- Settles O3: the decoder's words and the table's words are both those with legal fields, and each kind of illegal word
breaks one of the conditions on the fields. -/
theorem legalWordsAreTheTablesWords : Obligations.LegalWordsAreTheTablesWords := by
  intro c
  refine ⟨fun d => ?_, fun hnone => ?_, fun hrsv => ?_, fun op hop => ?_⟩
  · rw [legalWord_iff]
    constructor
    · rintro ⟨op, h⟩
      exact ⟨_, h.decode_eq d⟩
    · rintro ⟨i, h⟩
      obtain ⟨op, hc, -⟩ := decode_eq_ok_iff.mp h
      exact ⟨op, hc⟩
  · refine legalWord_eq_false_of fun op h => ?_
    rw [opcodeOf_eq_some_iff.mpr h.opcode] at hnone
    cases hnone
  · refine legalWord_eq_false_of fun op h => ?_
    rcases hrsv with h0 | h1 | h2
    · exact h0 h.rsv0
    · exact h1 h.rsv1
    · exact h2 h.rsv2
  · exact ⟨fun hu hne => legalWord_eq_false_of_opcode hop fun h => hne (h.unusedWidth hu),
      fun hu hne => legalWord_eq_false_of_opcode hop fun h => hne (h.unusedWhence hu),
      fun hu hgt => legalWord_eq_false_of_opcode hop fun h => absurd (h.width hu) (Nat.not_le.mpr hgt)⟩

/-- Settles O4: the word's fields are legal whatever DATA is, and the command is made without DATA. -/
theorem ignoredDataDoesNotMatter : Obligations.IgnoredDataDoesNotMatter := by
  intro c d d' i h hdata
  obtain ⟨op, hc, rfl⟩ := decode_eq_ok_iff.mp h
  rw [hc.decode_eq d', buildInstr_congr_data d' hdata]

end Sys2Proof

namespace Sys2Proof.Machine

/-! ### DATA as WRITEBITS and SEEK read it -/

/-- A chunk of the low `rem` bits of a value (R81). -/
theorem chunkBits_mod (v : Nat) {rem c : Nat} (h : c ≤ rem) : chunkBits (v % 2 ^ rem) rem c = chunkBits v rem c := by
  have hpow : 2 ^ rem = 2 ^ (rem - c) * 2 ^ c := by rw [← pow_add, Nat.sub_add_cancel h]
  rw [chunkBits_eq, chunkBits_eq, hpow, Nat.mod_mul_right_div_self, Nat.mod_mod]

/-- Values that agree in their low bits agree in fewer of them. -/
theorem mod_two_pow_sub_congr {v w rem : Nat} (c : Nat) (h : v % 2 ^ rem = w % 2 ^ rem) :
    v % 2 ^ (rem - c) = w % 2 ^ (rem - c) :=
  Nat.ModEq.of_dvd (pow_dvd_pow 2 (Nat.sub_le rem c)) h

/-- The loop of WRITEBITS sees only the low `rem` bits of the value. -/
theorem writeLoop_congr {v w rem : Nat} (fuel : Nat) (s : State) (h : v % 2 ^ rem = w % 2 ^ rem) :
    writeLoop v fuel rem s = writeLoop w fuel rem s := by
  induction fuel generalizing rem s with
  | zero => rfl
  | succ fuel ih =>
    have hchunk : chunkBits v rem (chunkSize rem s.wUsed.toNat) = chunkBits w rem (chunkSize rem s.wUsed.toNat) := by
      have hc : chunkSize rem s.wUsed.toNat ≤ rem := Nat.min_le_left _ _
      rw [← chunkBits_mod v hc, h, chunkBits_mod w hc]
    have hrest := fun t => ih t (mod_two_pow_sub_congr (chunkSize rem s.wUsed.toNat) h)
    simp only [writeLoop, hchunk, hrest]

/-- Settles O18: the loop is the only part of WRITEBITS that reads the value. -/
theorem writebitsIgnoresHighBits : Obligations.WritebitsIgnoresHighBits := by
  intro s n v w h
  simp only [exec_writebits, writeLoop_congr (n + 1) _ h]

/-- SEEK with a whence other than "start" and "current" halts (R71, R107). -/
theorem seekBody_other2 (d : Data) (s : State) : seekBody .other2 d s = s.raiseFatal .badWhence := rfl

/-- Settles O5: the words are computed; the legal and fatal one is the word of its SEEK, so it decodes to it. -/
theorem workedEncodings : Obligations.WorkedEncodings := by
  have hother2 : ∀ d : Data, encode (.seek .other2 d) = (0x00020009, d) := fun _ => rfl
  refine ⟨by decide, fun _ => rfl, by decide, by decide, by decide, by decide, by decide, by decide, by decide,
    fun d => ?_, fun d s hf => ?_⟩
  · have h := decode_encode (i := .seek .other2 d) rfl
    rwa [hother2] at h
  · rw [exec_seek_ready .other2 d hf, seekBody_other2]

end Sys2Proof.Machine
end

section
/-! The family of 40_writer.md: WRITEBITS, FLUSH and CLOSE command by command (R81 to R88). -/

namespace Sys2Proof.Machine

/-! ### WRITEBITS -/

/-- Settles O15: the loop emits the joined string's whole bytes and keeps its last bits (`writeLoop_ok`). -/
theorem writebitsEmitsTheJoinedString : Obligations.WritebitsEmitsTheJoinedString :=
  fun _ _ value hs hn hok => exec_writebits_ok value hs hn hok

/-- Settles O16: the loop stops at the first write that fails (`writeLoop_fails`). -/
theorem writebitsStopsAtTheFirstFailedWrite : Obligations.WritebitsStopsAtTheFirstFailedWrite := by
  rintro s n value i ⟨hf, he, hu⟩ hn hi hok herr
  rw [exec_writebits_ready value hf he hn,
    writeLoop_fails (v := value.toNat) hu (Nat.lt_succ_self n) hi hok herr]
  rfl

/-- With no bit left the loop of WRITEBITS is done (R81). -/
theorem writeLoop_no_bits (v fuel : Nat) (s : State) : writeLoop v fuel 0 s = (.ok, s) := by
  cases fuel with
  | zero => rfl
  | succ fuel => rw [writeLoop, if_pos rfl]

/-- Settles O17: a field of no bits leaves the loop nothing to do. -/
theorem zeroWidthWriteIsANoOp : Obligations.ZeroWidthWriteIsANoOp := by
  intro s value hf he
  rw [exec_writebits_ready value hf he (Nat.zero_le 64), writeLoop_no_bits]

/-- Settles O19: of what `exec_writebits_wrote` tells, the part about the writer stream. -/
theorem writebitsExtendsTheWriterStream : Obligations.WritebitsExtendsTheWriterStream := by
  intro s n value hs hn hok
  obtain ⟨t, hexec, -, hwrote⟩ := exec_writebits_wrote value hs hn hok
  exact ⟨t, hexec, hwrote.stream⟩

/-- Settles O20: `run_writeSession`, with no event after the session. -/
theorem writeSessionSpellsItsFields : Obligations.WriteSessionSpellsItsFields := by
  intro s fs hf he hu hw hok
  obtain ⟨t, hrun, -, hspelled⟩ := run_writeSession (s := s.withHost (writeSession fs)) (rest := [])
    (List.append_nil _).symm hf he hu hw hok
  exact ⟨t, hrun, hspelled.accepted, hspelled.responses⟩

/-- The first byte of a WRITEBITS that fills the cache: the pending bits, then the first bits of the field (R82). -/
theorem emittedByte_zero {s : State} {n k : Nat} (value : Data) (hk : s.wUsed.toNat + k = 8) (hn : k ≤ n) :
    emittedByte s n value 0 =
      BitVec.ofNat 8 (s.pending <<< k ||| (value.toNat % 2 ^ n) >>> (n - k)) := by
  have hlast : s.wUsed.toNat + n - 8 * (0 + 1) = n - k := by omega
  have hpow : 2 ^ n = 2 ^ (n - k) * 2 ^ k := by rw [← pow_add, Nat.sub_add_cancel hn]
  have hlow : value.toNat % 2 ^ n / 2 ^ (n - k) < 2 ^ k :=
    Nat.div_lt_of_lt_mul (hpow ▸ Nat.mod_lt _ (by positivity))
  have hjoined : joined s n value = 2 ^ (n - k) * (s.pending * 2 ^ k) + value.toNat % 2 ^ n := by
    rw [joined_eq, hpow, Nat.mul_left_comm]
  rw [emittedByte, byteOfString, hlast, hjoined, Nat.shiftRight_eq_div_pow, Nat.shiftRight_eq_div_pow,
    ← Nat.shiftLeft_add_eq_or_of_lt hlow, Nat.shiftLeft_eq, Nat.mul_add_div (by positivity)]

/-- The bytes of a WRITEBITS that fills the cache begin with byte number 0. -/
theorem emittedBytes_eq_cons {s : State} {n : Nat} (value : Data) (hn : 8 - s.wUsed.toNat ≤ n) :
    ∃ later, emittedBytes s n value (emitCount s n) = emittedByte s n value 0 :: later := by
  obtain ⟨m, hm⟩ : ∃ m, emitCount s n = m + 1 := Nat.exists_eq_add_one.mpr (by rw [emitCount]; omega)
  exact ⟨_, by rw [hm, emittedBytes, List.range_succ_eq_map, List.map_cons]⟩

/-- A WRITEBITS that fills the cache, every write succeeding: the byte it emits first. -/
theorem exec_writebits_first_byte {s : State} {n : Nat} (value : Data) (hs : s.WriterReady) (hn : n ≤ 64)
    (hfill : 8 - s.wUsed.toNat ≤ n) (hok : ∀ k < emitCount s n, s.answerAt k = .ok) :
    ∃ t later, exec (.writebits n value) s = .next t ∧
      t.accepted = s.accepted ++ BitVec.ofNat 8 (s.pending <<< (8 - s.wUsed.toNat) |||
        (value.toNat % 2 ^ n) >>> (n - (8 - s.wUsed.toNat))) :: later := by
  obtain ⟨c, u, hexec, -, -⟩ := exec_writebits_ok value hs hn hok
  obtain ⟨-, -, hu⟩ := hs
  obtain ⟨later, hbytes⟩ := emittedBytes_eq_cons value hfill
  refine ⟨_, later, hexec, ?_⟩
  rw [respond_accepted, withCache_accepted, afterWrites_accepted, hbytes,
    emittedByte_zero value (by omega) hfill]

/-- With nothing pending the joined string is the field alone (R82). -/
theorem joined_of_used_zero {s : State} (h : s.wUsed = 0) (n : Nat) (value : Data) :
    joined s n value = value.toNat % 2 ^ n := by
  have hpend : s.pending = 0 := by
    rw [State.pending, h]
    exact Nat.mod_one _
  rw [joined_eq, hpend, Nat.zero_mul, Nat.zero_add]

/-! ### FLUSH -/

/-- The byte a FLUSH emits, from the pending bits (R85). -/
theorem padded_eq_pending {s : State} (hu : s.wUsed.toNat ≤ 8) :
    padded s.wCache s.wUsed.toNat = BitVec.ofNat 8 (s.pending <<< (8 - s.wUsed.toNat)) :=
  padded_eq s.wCache hu

theorem padded_eq_shiftLeft (c : Byte) (u : Nat) : padded c u = c <<< (8 - u) := by
  apply BitVec.eq_of_toNat_eq
  rw [padded, BitVec.toNat_ofNat, BitVec.toNat_shiftLeft]
  rfl

/-- Padding twice for at most 4 pending bits shifts every bit out (R86). -/
theorem padded_padded {u : Nat} (c : Byte) (hu : u ≤ 4) : padded (padded c u) u = 0 := by
  rw [padded_eq_shiftLeft, padded_eq_shiftLeft, ← BitVec.shiftLeft_add]
  exact BitVec.shiftLeft_eq_zero (by omega)

/-- A FLUSH of pending bits whose write succeeds (R84, R85). -/
theorem exec_flush_ok {s : State} (hf : s.bFatal = false) (he : s.wErr = false) (h0 : s.wUsed ≠ 0)
    (ha : s.answerAt 0 = .ok) :
    exec .flush s = .next (((s.afterWrites [padded s.wCache s.wUsed.toNat]).withCache
      (padded s.wCache s.wUsed.toNat) (if s.platform.flushClearsUsed then 0 else s.wUsed)).respond .ok 0) := by
  rw [exec_flush_ready hf he, flushBody_ok h0 ha]

/-- Settles O21: FLUSH's body has nothing to do (`flushBody_none`). -/
theorem flushWithNothingPending : Obligations.FlushWithNothingPending := by
  intro s hf he h0
  rw [exec_flush_ready hf he, flushBody_none h0]

/-- Settles O22: the padded cache is the pending bits shifted up, stale bits pushed out (`padded_eq`). -/
theorem flushEmitsThePaddedByte : Obligations.FlushEmitsThePaddedByte := by
  rintro s ⟨hf, he, hu⟩ h0 ha
  rw [exec_flush_ok hf he h0 ha, padded_eq_pending (by omega)]

/-- Settles O23: a flush that fails is the whole of CLOSE's body too (`closeBody_flush_fails`). -/
theorem flushFailureIsClosesToo : Obligations.FlushFailureIsClosesToo := by
  rintro s ⟨hf, he, hu⟩ h0 ha
  have hflush := flushBody_fails h0 ha
  rw [exec_close_ready hf he, closeBody_flush_fails hflush, exec_flush_ready hf he, hflush,
    padded_eq_pending (by omega)]
  exact ⟨rfl, rfl⟩

/-- Where flushing does not clear `W.used`, a successful FLUSH leaves a ready writer whose pending bits are those of the byte it
emitted (R85, R86). -/
theorem exec_flush_keeps {s : State} (hs : s.WriterReady) (hkeep : s.platform.flushClearsUsed = false)
    (h0 : s.wUsed ≠ 0) (ha : s.answerAt 0 = .ok) :
    ∃ t : State, exec .flush s = .next t ∧ t.WriterReady ∧ t.platform = s.platform ∧ t.wUsed = s.wUsed ∧
      t.wCache = padded s.wCache s.wUsed.toNat ∧ t.accepted = s.accepted ++ [t.wCache] ∧
      t.answerAt 0 = s.answerAt 1 := by
  obtain ⟨hf, he, hu⟩ := hs
  have hflush := exec_flush_ok hf he h0 ha
  rw [hkeep, if_neg Bool.false_ne_true] at hflush
  refine ⟨_, hflush, ⟨hf, he, hu⟩, rfl, rfl, rfl, ?_, afterWrites_answerAt _ s 0⟩
  rw [respond_accepted, withCache_accepted, afterWrites_accepted, respond_wCache, withCache_wCache]

/-- Settles O24: after the first FLUSH the writer is ready again, with nothing pending where flushing clears `W.used`, and with
the padded byte's bits pending where it does not (`exec_flush_keeps`). -/
theorem flushAgainAndWriteAfterFlush : Obligations.FlushAgainAndWriteAfterFlush := by
  intro s hs h0 ha
  cases hclear : s.platform.flushClearsUsed with
  | true =>
    obtain ⟨hf, he, -⟩ := hs
    refine ⟨_, exec_flush_ok hf he h0 ha, fun _ => ?_, nofun⟩
    rw [hclear, if_pos rfl]
    exact ⟨rfl, flushWithNothingPending _ hf he rfl, joined_of_used_zero rfl⟩
  | false =>
    obtain ⟨t, hflush, ht, hplat, hused, hcache, hacc, hnext⟩ := exec_flush_keeps hs hclear h0 ha
    obtain ⟨-, -, hu⟩ := hs
    refine ⟨t, hflush, nofun, fun _ => ⟨hused, ?_, hacc, fun h4 => ?_, fun ha1 => ?_,
      fun n value hfill hn hok => ?_⟩⟩
    · rw [hcache, padded_eq_pending (by omega)]
    · rw [hcache]
      exact padded_padded s.wCache h4
    · obtain ⟨t', hflush', -, -, hused', hcache', hacc', -⟩ :=
        exec_flush_keeps ht (hplat ▸ hclear) (hused ▸ h0) (hnext.trans ha1)
      exact ⟨t', hflush', hused'.trans hused, hused ▸ hcache', hacc'⟩
    · rw [← hused] at hfill ⊢
      exact exec_writebits_first_byte value ht hn hfill hok

/-! ### CLOSE -/

/-- Where the sink cannot be closed, CLOSE's body is FLUSH's (R87, D9). -/
theorem closeBody_eq_flushBody {s : State} (hc : s.platform.sinkHasClose = false) :
    closeBody s = flushBody s := by
  rcases flushBody_cases s with ⟨-, hb⟩ | ⟨-, -, hb⟩ | ⟨-, -, hb⟩
  · rw [hb, closeBody_no_close hb hc]
  · rw [hb, closeBody_no_close hb hc]
  · rw [hb, closeBody_flush_fails hb]

/-- Settles O25: the entry checks are the same, and so is the body (`closeBody_eq_flushBody`). -/
theorem closeWithoutCapabilityIsFlush : Obligations.CloseWithoutCapabilityIsFlush := by
  intro s hc
  simp only [exec_close, exec_flush, writerEntry, closeBody_eq_flushBody hc]

/-- FLUSH's body, if it has nothing to do or its write succeeds: it answers OK, and draws an answer for its write. -/
theorem flushBody_succeeds {s : State} (hok : s.wUsed ≠ 0 → s.answerAt 0 = .ok) :
    ∃ t : State, flushBody s = (.ok, t) ∧ t.wErr = s.wErr ∧ t.platform = s.platform ∧
      t.answerAt 0 = s.answerAt (if s.wUsed = 0 then 0 else 1) := by
  by_cases h0 : s.wUsed = 0
  · rw [if_pos h0]
    exact ⟨s, flushBody_none h0, rfl, rfl, rfl⟩
  · rw [if_neg h0]
    exact ⟨_, flushBody_ok h0 (hok h0), rfl, rfl, afterWrites_answerAt _ s 0⟩

/-- Settles O26: CLOSE's body goes on from the state the flush has left (`closeBody_close`). -/
theorem closeFlushesThenCloses : Obligations.CloseFlushesThenCloses := by
  rintro s ⟨hf, he, -⟩ hc hok
  obtain ⟨t, hflush, hterr, htplat, hanswer⟩ := flushBody_succeeds hok
  refine ⟨t, ?_, hterr.trans he, hanswer, ?_⟩
  · rw [exec_flush_ready hf he, hflush]
  · rw [exec_close_ready hf he, closeBody_close hflush (by rw [htplat, hc])]

/-- After a successful flush CLOSE's body adds no byte to the sink and leaves `W.used` as it is. -/
theorem closeBody_keeps_flushed {s t : State} (h : flushBody s = (.ok, t)) :
    (closeBody s).2.accepted = t.accepted ∧ (closeBody s).2.wUsed = t.wUsed := by
  rcases closeBody_of_flush_ok h with hb | ⟨st, hb⟩ <;> rw [hb]
  · exact ⟨rfl, rfl⟩
  · exact ⟨by rw [record_accepted, answersDrawn_accepted]; exact List.append_nil _, rfl⟩

theorem lastResponse_respond (st : Status) (r : Data) (s : State) :
    (s.respond st r).lastResponse = some (some { status := st, result := r }) := by
  rw [State.lastResponse, respond_responses, List.getLast?_concat]

/-- The ways CLOSE can answer a next state: the writer is poisoned, before it or by its flush, and the answer is not OK; or the
flush is done, and the sink's bytes and `W.used` are as the flush has left them. -/
theorem exec_close_next {s t : State} (h : exec .close s = .next t) :
    (t.wErr = true ∧ t.lastResponse ≠ some (some { status := .ok, result := 0 })) ∨
    ∃ u, flushBody s = (.ok, u) ∧ t.accepted = u.accepted ∧ t.wUsed = u.wUsed := by
  rw [exec_close] at h
  obtain ⟨-, ⟨hlegal, -⟩ | ⟨-, he, rfl⟩ | ⟨-, -, rfl⟩⟩ := writerEntry_next h
  · cases hlegal
  · exact .inl ⟨he, by simp [lastResponse_respond]⟩
  · rcases flushBody_cases s with ⟨-, hb⟩ | ⟨-, -, hb⟩ | ⟨-, -, hb⟩
    · exact .inr ⟨_, hb, closeBody_keeps_flushed hb⟩
    · exact .inr ⟨_, hb, closeBody_keeps_flushed hb⟩
    · rw [closeBody_flush_fails hb]
      exact .inl ⟨rfl, by simp [lastResponse_respond]⟩

/-- CLOSE with nothing pending makes no sink write (R88). -/
theorem exec_close_emits_nothing {s t : State} (h0 : s.wUsed = 0) (h : exec .close s = .next t) :
    t.accepted = s.accepted ∧ sinkWrites t.bus = sinkWrites s.bus := by
  have hu : s.usedLegal = true := (usedLegal_iff s).mpr (.inl (by rw [h0]; decide))
  obtain ⟨ts, hts, hw, -, -⟩ := exec_addsAtMost hu h
  have hnone : sinkWrites ts = 0 := by
    simpa [storedCount, h0] using hw
  have hacc : ts.filterMap acceptedByte = [] :=
    List.eq_nil_of_length_eq_zero (Nat.le_zero.mp (hnone ▸ acceptedByte_length_le ts))
  constructor
  · rw [State.accepted, hts, List.filterMap_append, hacc, List.append_nil, State.accepted]
  · rw [hts, sinkWrites_append, hnone, Nat.add_zero]

/-- What a successful flush makes of `W.used`, with pending bits or without (R84, R85). -/
theorem flushBody_ok_wUsed {s t : State} (h : flushBody s = (.ok, t)) :
    t.wUsed = if s.platform.flushClearsUsed then 0 else s.wUsed := by
  rcases flushBody_cases s with ⟨h0, hb⟩ | ⟨-, -, hb⟩ | ⟨-, -, hb⟩ <;> rw [hb] at h <;> cases h
  · rw [h0, ite_self]
  · rfl

/-- A CLOSE of pending bits whose write succeeds adds the padded byte to the sink. -/
theorem exec_close_emits {s : State} (hf : s.bFatal = false) (he : s.wErr = false) (h0 : s.wUsed ≠ 0)
    (ha : s.answerAt 0 = .ok) :
    ∃ t, exec .close s = .next t ∧ t.accepted = s.accepted ++ [padded s.wCache s.wUsed.toNat] := by
  have hflush := flushBody_ok h0 ha
  refine ⟨_, exec_close_ready hf he, ?_⟩
  rw [respond_accepted, (closeBody_keeps_flushed hflush).1, withCache_accepted, afterWrites_accepted]

/-- Settles O27: a CLOSE that was not poisoned leaves `W.used` as its flush does (`exec_close_next`); what the next CLOSE emits
is then told by `W.used` alone. -/
theorem closeAgain : Obligations.CloseAgain := by
  refine ⟨fun s t h0 h => exec_close_emits_nothing h0 h, fun s t hclear h hok => ?_,
    fun s t hs hkeep h0 h hterr ha => ?_⟩
  · obtain ⟨u, hflush, -, hused⟩ := (exec_close_next h).resolve_left fun ⟨_, hne⟩ => hne hok
    have ht0 : t.wUsed = 0 := by rw [hused, flushBody_ok_wUsed hflush, if_pos hclear]
    exact ⟨ht0, fun t' h' => (exec_close_emits_nothing ht0 h').1⟩
  · obtain ⟨hf, he, -⟩ := hs
    obtain ⟨u, hflush, -, hused⟩ := (exec_close_next h).resolve_left fun ⟨hpoisoned, _⟩ => by
      rw [hterr] at hpoisoned
      cases hpoisoned
    have htused : t.wUsed = s.wUsed := by
      rw [hused, flushBody_ok_wUsed hflush, hkeep, if_neg Bool.false_ne_true]
    obtain ⟨-, htf, -⟩ := writerCommandFrame .close s t rfl h
    obtain ⟨t', h', hacc⟩ := exec_close_emits (htf.trans hf) hterr (htused ▸ h0) ha
    exact ⟨t', h', by rw [hacc, htused]; rfl⟩

end Sys2Proof.Machine
end

section
/-! The family of 41_seeker.md: READBITS, SEEK, SKIP and TELL command by command (R101 to R111). -/

namespace Sys2Proof.Machine

/-! ### The addresses READBITS reads (R104) -/

theorem readCount_zero (p : Nat) : readCount p 0 = 1 :=
  readCount_within (by omega)

theorem readCount_of_pos (p : Nat) {n : Nat} (h : 1 ≤ n) : readCount p n = (p % 8 + n + 7) / 8 :=
  Nat.max_eq_right (by omega)

/-- The last byte read is the one that holds the field's last bit. -/
theorem readCount_eq_last_sub_first (p : Nat) {n : Nat} (h : 1 ≤ n) :
    readCount p n = (p + n - 1) / 8 - p / 8 + 1 := by
  rw [readCount_of_pos p h]
  omega

theorem readCount_le_nine (p : Nat) {n : Nat} (h : n ≤ 64) : readCount p n ≤ 9 :=
  Nat.max_le.mpr ⟨by omega, by omega⟩

theorem readAddrs_length (p n : Nat) : (readAddrs p n).length = readCount p n :=
  List.length_range'

theorem readAddrs_zero (p : Nat) : readAddrs p 0 = [p / 8] := by
  rw [readAddrs, readCount_zero, List.range'_one]

theorem mem_readAddrs {p n j : Nat} (h : j < readCount p n) : p / 8 + j ∈ readAddrs p n :=
  List.mem_range'_1.mpr ⟨Nat.le_add_right _ _, Nat.add_lt_add_left h _⟩

/-! ### READBITS -/

/-- Settles O31: the answer is `exec_readbits_ok`'s; the addresses are counted by `readCount`. -/
theorem readbitsReturnsTheField : Obligations.ReadbitsReturnsTheField := by
  rintro s n ⟨hf, hs⟩ hn hrange hbytes
  have hp := (readRange_iff hs n).mp hrange
  refine ⟨_, exec_readbits_ok hf hn hp fun j hj => hbytes _ (mem_readAddrs hj), rfl,
    afterReads_pos _ (by omega), fieldAt_lt _ _ _, fun h1 => ?_, fun h1 => ?_, ?_, ?_⟩
  · rw [readAddrs, readCount_eq_last_sub_first _ h1]
  · rw [readAddrs_length, readCount_of_pos _ h1]
  · rintro rfl
    exact readAddrs_zero _
  · rw [readAddrs_length]
    exact readCount_le_nine _ hn

/-- A READBITS whose read number `i` is the first to fail (R106). -/
theorem exec_readbits_fails {s : State} {n i : Nat} (hf : s.bFatal = false) (hn : n ≤ 64)
    (hp : s.rPos.toNat + n < 2 ^ 63) (hi : i < readCount s.rPos.toNat n)
    (hr : ∀ j < i, (s.sourceAt (s.rPos.toNat / 8 + j)).isSome)
    (hfail : s.sourceAt (s.rPos.toNat / 8 + i) = none) :
    exec (.readbits n) s = .next ((s.afterReads (passedBefore s.rPos.toNat i)
      (List.range' (s.rPos.toNat / 8) (i + 1))).raiseFatal .readFail) := by
  have hrange := (readRange_iff ((posLegal_iff s).mpr (by omega)) n).mpr hp
  have hfield := readField_fails (by omega) hi hr hfail
  rw [exec_readbits_ready hf hn]
  rcases readBody_cases n s with ⟨hout, -⟩ | ⟨-, v, t, h, -⟩ | ⟨-, t, h, hb⟩
  · omega
  · cases hfield.symm.trans h
  · cases hfield.symm.trans h
    rw [hb]

/-- Before read number `i` of several the cursor has come to the boundary of the byte that the read addresses (R106). -/
theorem add_passedBefore (p : Nat) {i : Nat} (h : 0 < i) : p + passedBefore p i = 8 * (p / 8 + i) := by
  rw [passedBefore, if_neg (by omega)]
  omega

/-- Settles O32: `exec_readbits_fails`, and where `passedBefore` puts the cursor. -/
theorem readbitsHaltsAtTheFirstFailedRead : Obligations.ReadbitsHaltsAtTheFirstFailedRead := by
  rintro s n i ⟨hf, hs⟩ hn hrange hi hr hfail
  have hp := (readRange_iff hs n).mp hrange
  have hle := passedBefore_le hi
  refine ⟨_, exec_readbits_fails hf hn hp hi hr hfail, rfl, ?_, fun hpos => ?_⟩
  · rintro rfl
    exact BitVec.add_zero s.rPos
  · rw [afterReads_pos _ (by omega), add_passedBefore _ hpos]

/-- Settles O33: the range check is the first branch of READBITS's body. -/
theorem readbitsPastTheEndHaltsBeforeReading : Obligations.ReadbitsPastTheEndHaltsBeforeReading := by
  intro s n hf hn hout
  rw [exec_readbits_ready hf hn]
  rcases readBody_cases n s with ⟨-, hb⟩ | ⟨hin, -⟩ | ⟨hin, -⟩
  · rw [hb]
  · omega
  · omega

/-- Settles O34: with no bits to return the one read of `readAddrs_zero` is still made. -/
theorem zeroWidthReadReadsOneByte : Obligations.ZeroWidthReadReadsOneByte := by
  rintro s ⟨hf, hs⟩ hbyte
  have hr : ∀ j < readCount s.rPos.toNat 0, (s.sourceAt (s.rPos.toNat / 8 + j)).isSome := by
    intro j hj
    rw [readCount_zero] at hj
    rwa [Nat.lt_one_iff.mp hj]
  have hread : s.afterReads 0 [s.rPos.toNat / 8] =
      s.record (.memRead (s.rPos.toNat / 8) (s.sourceAt (s.rPos.toNat / 8))) :=
    (congrArg Prod.snd (memRead_eq (s.rPos.toNat / 8) s)).symm
  rw [exec_readbits_ok hf (Nat.zero_le 64) ((posLegal_iff s).mp hs) hr, readAddrs_zero, hread, fieldAt_zero]
  rfl

/-! ### The accumulator of READBITS (R102, R105) -/

/-- Settles O36: the table is computed, and the mask is a remainder (`unconsumed_eq`). -/
theorem firstByteMaskTable : Obligations.FirstByteMaskTable :=
  ⟨by decide, fun b _ h => unconsumed_eq b h⟩

theorem unconsumed_lt (b : Byte) {bo : Nat} (h : bo ≤ 7) : unconsumed b bo < 2 ^ (8 - bo) := by
  rw [unconsumed_eq b h]
  exact Nat.mod_lt _ (by positivity)

theorem withinByte_lt (b : Byte) {bo n : Nat} (h : bo ≤ 7) (hn : bo + n ≤ 8) : withinByte b bo n < 2 ^ n := by
  rw [withinByte_eq b h hn]
  exact Nat.mod_lt _ (by positivity)

theorem accByte_lt {acc m : Nat} (b : Byte) (h : acc < 2 ^ m) : accByte acc b < 2 ^ (m + 8) :=
  Nat.or_lt_two_pow (Nat.shiftLeft_lt h)
    (Nat.lt_of_lt_of_le b.isLt (Nat.pow_le_pow_right (by omega) (by omega)))

theorem accTail_lt {acc m rem : Nat} (b : Byte) (h : acc < 2 ^ m) (hrem : rem ≤ 8) :
    accTail acc rem b < 2 ^ (m + rem) := by
  have htop := b.toNat_ushiftRight_lt (8 - rem) (Nat.sub_le 8 rem)
  rw [BitVec.toNat_ushiftRight, Nat.sub_sub_self hrem] at htop
  exact Nat.or_lt_two_pow (Nat.shiftLeft_lt h)
    (Nat.lt_of_lt_of_le htop (Nat.pow_le_pow_right (by omega) (by omega)))

theorem readWithin_lt {s t : State} {n v : Nat} (hn : s.bitOffset + n ≤ 8)
    (h : readWithin n s = (some v, t)) : v < 2 ^ n := by
  unfold readWithin at h
  split at h
  · cases h
  · cases h
    exact withinByte_lt _ (Nat.le_of_lt_succ (Nat.mod_lt _ (by omega))) hn

theorem readWhole_lt {s t : State} {k acc m v : Nat} (hacc : acc < 2 ^ m)
    (h : readWhole k acc s = (some v, t)) : v < 2 ^ (m + 8 * k) := by
  induction k generalizing acc m s with
  | zero =>
    cases h
    exact hacc
  | succ k ih =>
    unfold readWhole at h
    split at h
    · cases h
    · rw [Nat.mul_succ, Nat.add_comm (8 * k), ← Nat.add_assoc]
      exact ih (accByte_lt _ hacc) h

theorem readTail_lt {s t : State} {rem acc m v : Nat} (hacc : acc < 2 ^ m) (hrem : rem ≤ 8)
    (h : readTail rem acc s = (some v, t)) : v < 2 ^ (m + rem) := by
  unfold readTail at h
  split at h
  next h0 =>
    cases h
    rwa [h0]
  next =>
    split at h
    · cases h
    · cases h
      exact accTail_lt _ hacc hrem

/-- The first byte, the whole bytes and the tail bring `n` bits together. -/
theorem readAcross_lt {s t : State} {n v : Nat} (hn : 8 < s.bitOffset + n)
    (h : readAcross n s = (some v, t)) : v < 2 ^ n := by
  have hbo : s.bitOffset < 8 := Nat.mod_lt _ (by omega)
  unfold readAcross at h
  split at h
  · cases h
  next b s1 _ =>
    dsimp only at h
    split at h
    · cases h
    next acc s2 hwhole =>
      have hacc := readWhole_lt (unconsumed_lt b (by omega)) hwhole
      have hbits : n = 8 - s.bitOffset + 8 * ((n - (8 - s.bitOffset)) / 8) + (n - (8 - s.bitOffset)) % 8 := by
        omega
      rw [hbits]
      exact readTail_lt hacc (by omega) h

/-- Settles O35: a field within one byte is a remainder, and across bytes each step adds as many bits as it shifts by. -/
theorem accumulatorNeverOverflows : Obligations.AccumulatorNeverOverflows := by
  intro s t n v h
  unfold readField at h
  split at h
  next hin => exact readWithin_lt hin h
  next hin => exact readAcross_lt (Nat.lt_of_not_le hin) h

/-! ### The cursor's moves (R107, R109) -/

theorem cursorLegal_iff (p : Int) : cursorLegal p = true ↔ 0 ≤ p ∧ p ≤ Config.posMax := by
  rw [cursorLegal, Bool.and_eq_true, decide_eq_true_eq, decide_eq_true_eq]

theorem moveCursor_of_legal {new : Int} (r : Data) (s : State) (h0 : 0 ≤ new) (h1 : new ≤ Config.posMax) :
    moveCursor new r s = (s.setPos new).respond .ok r :=
  if_pos ((cursorLegal_iff new).mpr ⟨h0, h1⟩)

theorem moveCursor_of_illegal {new : Int} (r : Data) (s : State) (h : new < 0 ∨ Config.posMax < new) :
    moveCursor new r s = s.raiseFatal .range := by
  refine if_neg ?_
  rw [cursorLegal_iff]
  omega

theorem setPos_toInt (x : Data) (s : State) : s.setPos x.toInt = { s with rPos := x } := by
  rw [State.setPos, BitVec.ofInt_toInt]

theorem ofInt_toInt_add (x y : Data) : BitVec.ofInt 64 (x.toInt + y.toInt) = x + y := by
  rw [BitVec.ofInt_add, BitVec.ofInt_toInt, BitVec.ofInt_toInt]

theorem setPos_toInt_add (x y : Data) (s : State) :
    s.setPos (x.toInt + y.toInt) = { s with rPos := x + y } := by
  rw [State.setPos, ofInt_toInt_add]

/-- A sum in the cursor's range does not wrap. -/
theorem toInt_add_of_legal {x y : Data} (h0 : 0 ≤ x.toInt + y.toInt) (h1 : x.toInt + y.toInt ≤ Config.posMax) :
    (x + y).toInt = x.toInt + y.toInt := by
  have htop : Config.posMax = 2 ^ 63 - 1 := rfl
  rw [BitVec.toInt_add]
  exact Int.bmod_eq_of_le (by omega) (by omega)

theorem toNat_eq_toInt_toNat {x : Data} (h : 0 ≤ x.toInt) : x.toNat = x.toInt.toNat := by
  rw [BitVec.toInt_eq_toNat_cond] at h ⊢
  split at h <;> omega

theorem toInt_le_posMax (x : Data) : x.toInt ≤ Config.posMax :=
  Int.le_of_lt_add_one (BitVec.toInt_lt (x := x))

theorem seekBody_start (offset : Data) (s : State) :
    seekBody .start offset s = moveCursor offset.toInt offset s :=
  congrArg (moveCursor offset.toInt · s) BitVec.ofInt_toInt

theorem seekBody_current (offset : Data) (s : State) :
    seekBody .current offset s = moveCursor (s.rPos.toInt + offset.toInt) (s.rPos + offset) s :=
  congrArg (moveCursor (s.rPos.toInt + offset.toInt) · s) (ofInt_toInt_add s.rPos offset)

section Ready

variable {s : State} (hf : s.bFatal = false)
include hf

theorem exec_seek_start (offset : Data) :
    exec (.seek .start offset) s = .next (moveCursor offset.toInt offset s) := by
  rw [exec_seek_ready _ _ hf, seekBody_start]

theorem exec_seek_current (offset : Data) :
    exec (.seek .current offset) s =
      .next (moveCursor (s.rPos.toInt + offset.toInt) (s.rPos + offset) s) := by
  rw [exec_seek_ready _ _ hf, seekBody_current]

theorem exec_skip_eq (offset : Data) :
    exec (.skip offset) s = .next (moveCursor (s.rPos.toInt + offset.toInt) 0 s) := by
  rw [exec_skip_ready _ hf, skipBody, skipTarget]

theorem exec_seek_start_ok {offset : Data} (h : 0 ≤ offset.toInt) :
    exec (.seek .start offset) s = .next ({ s with rPos := offset }.respond .ok offset) := by
  rw [exec_seek_start hf, moveCursor_of_legal _ _ h (toInt_le_posMax offset), setPos_toInt]

theorem exec_seek_current_ok {offset : Data} (h0 : 0 ≤ s.rPos.toInt + offset.toInt)
    (h1 : s.rPos.toInt + offset.toInt ≤ Config.posMax) :
    exec (.seek .current offset) s =
      .next ({ s with rPos := s.rPos + offset }.respond .ok (s.rPos + offset)) := by
  rw [exec_seek_current hf, moveCursor_of_legal _ _ h0 h1, setPos_toInt_add]

end Ready

/-! ### SEEK, SKIP and TELL -/

/-- Settles O37: the cursor's move to a legal target, whose sum does not wrap (`toInt_add_of_legal`). -/
theorem seekSetsAndReturnsTheCursor : Obligations.SeekSetsAndReturnsTheCursor :=
  fun _ _ hf => ⟨exec_seek_start_ok hf,
    fun h0 h1 => ⟨exec_seek_current_ok hf h0 h1, toInt_add_of_legal h0 h1⟩⟩

/-- Settles O38: a SEEK leaves the source as it was, so the READBITS after it (`exec_readbits_ok`) finds the field of the same
stream at the new cursor. -/
theorem seekThenReadReadsThere : Obligations.SeekThenReadReadsThere := by
  refine ⟨fun s hf => ⟨_, exec_seek_start_ok hf (by decide), rfl⟩, ?_⟩
  rintro s k ⟨hf, -⟩ h0 h1
  have hint := toInt_add_of_legal h0 h1
  have hnat : (s.rPos + k).toNat = (s.rPos.toInt + k.toInt).toNat := by
    rw [toNat_eq_toInt_toNat (by rwa [hint]), hint]
  refine ⟨_, exec_seek_current_ok hf h0 h1, hint, lastResponse_respond _ _ _, fun n hn hrange hbytes => ?_⟩
  rw [← hnat] at hbytes ⊢
  have hlegal : State.posLegal { s with rPos := s.rPos + k } = true := by
    rw [State.posLegal, cursorLegal_iff, hint]
    exact ⟨h0, h1⟩
  have hp := (readRange_iff hlegal n).mp hrange
  exact ⟨_, exec_readbits_ok hf hn hp fun j hj => hbytes _ (mem_readAddrs hj), lastResponse_respond _ _ _⟩

theorem seekBody_other3 (d : Data) (s : State) : seekBody .other3 d s = s.raiseFatal .badWhence := rfl

/-- Settles O39: the whence is checked before the target is computed (`seekBody_other2`, `seekBody_other3`). -/
theorem unsupportedWhenceHalts : Obligations.UnsupportedWhenceHalts := by
  intro s offset hf
  rw [exec_seek_ready _ _ hf, exec_seek_ready _ _ hf, seekBody_other2, seekBody_other3]
  exact ⟨rfl, rfl⟩

/-- Settles O40: the three commands move the cursor by the same check (`moveCursor_of_illegal`). -/
theorem cursorOutOfRangeHalts : Obligations.CursorOutOfRangeHalts := by
  intro s offset hf
  refine ⟨fun h => ?_, fun h => ⟨?_, ?_⟩⟩
  · rw [exec_seek_start hf, moveCursor_of_illegal _ _ (.inl h)]
  · rw [exec_seek_current hf, moveCursor_of_illegal _ _ h]
  · rw [exec_skip_eq hf, moveCursor_of_illegal _ _ h]

/-- Settles O41: the cursor's move to a legal target. -/
theorem skipMovesTheCursor : Obligations.SkipMovesTheCursor := by
  intro s offset hf h0 h1
  rw [exec_skip_eq hf, moveCursor_of_legal _ _ h0 h1, setPos_toInt_add]

/-- Settles O42: both commands move the cursor to the same target, and only the RESULT they give with it differs. -/
theorem skipAgreesWithRelativeSeek : Obligations.SkipAgreesWithRelativeSeek := by
  intro s k hf
  refine ⟨_, _, exec_skip_eq hf k, exec_seek_current hf k, ?_⟩
  by_cases h : 0 ≤ s.rPos.toInt + k.toInt ∧ s.rPos.toInt + k.toInt ≤ Config.posMax
  · obtain ⟨h0, h1⟩ := h
    rw [moveCursor_of_legal _ _ h0 h1, moveCursor_of_legal _ _ h0 h1, setPos_toInt_add]
    refine ⟨rfl, fun hhalt => ?_, fun _ => ⟨rfl, rfl⟩⟩
    rw [respond_bFatal, hf] at hhalt
    cases hhalt
  · have hout : s.rPos.toInt + k.toInt < 0 ∨ Config.posMax < s.rPos.toInt + k.toInt := by omega
    rw [moveCursor_of_illegal _ _ hout, moveCursor_of_illegal _ _ hout]
    exact ⟨rfl, fun _ => ⟨rfl, rfl⟩, nofun⟩

/-- Settles O43: TELL's body only responds, and a cursor in its range is below 2^63. -/
theorem tellReturnsTheCursor : Obligations.TellReturnsTheCursor := by
  refine fun s hf => ⟨?_, fun hs => ?_⟩
  · rw [exec_tell, readerEntry_ready hf]
  · exact Nat.testBit_eq_false_of_lt ((posLegal_iff s).mp hs)

end Sys2Proof.Machine
end

section
/-! The family of 60_exceptions.md: what raising FATAL leaves (R120, R124), the statuses ILLEGAL and WRITER_UNUSABLE (R121,
R122), the idle block (R134), and the order of a writer and a reader command (R132). -/

namespace Sys2Proof.Machine

/-! ### The order of a writer and a reader command (R2, R132): what the writer works from -/

/-- The part of the state the writer works from and leaves its effects in: all but the cursor, the transactions and the
responses. -/
def State.bare (s : State) : State := { s with rPos := 0, bus := [], responses := [] }

/-- The two states agree in what the writer works from, in the sink's bytes and in its closes. -/
structure SameWriter (s t : State) : Prop where
  bare : t.bare = s.bare
  accepted : t.accepted = s.accepted
  closeAnswers : t.closeAnswers = s.closeAnswers

section Fields

variable {s t : State} (h : SameWriter s t)
include h

theorem SameWriter.symm : SameWriter t s := ⟨h.bare.symm, h.accepted.symm, h.closeAnswers.symm⟩
theorem SameWriter.wCache : t.wCache = s.wCache := (congrArg State.wCache h.bare :)
theorem SameWriter.wUsed : t.wUsed = s.wUsed := (congrArg State.wUsed h.bare :)
theorem SameWriter.wErr : t.wErr = s.wErr := (congrArg State.wErr h.bare :)
theorem SameWriter.bFatal : t.bFatal = s.bFatal := (congrArg State.bFatal h.bare :)
theorem SameWriter.sinkScript : t.sinkScript = s.sinkScript := (congrArg State.sinkScript h.bare :)
theorem SameWriter.draws : t.draws = s.draws := (congrArg State.draws h.bare :)

theorem SameWriter.trans {u : State} (h' : SameWriter t u) : SameWriter s u :=
  ⟨h'.bare.trans h.bare, h'.accepted.trans h.accepted, h'.closeAnswers.trans h.closeAnswers⟩

end Fields

theorem bare_withReader (s : State) : s.bare.withReader s.rPos s.bus s.responses = s := by
  simp [State.bare, State.withReader]

theorem withReader_accepted (p : Data) (ts : List Transaction) (rs : List (Option Response)) (s : State) :
    (s.withReader p ts rs).accepted = ts.filterMap acceptedByte ++ s.accepted :=
  List.filterMap_append

theorem withReader_closeAnswers (p : Data) (ts : List Transaction) (rs : List (Option Response))
    (s : State) : (s.withReader p ts rs).closeAnswers = ts.filterMap closeAnswer ++ s.closeAnswers :=
  List.filterMap_append

theorem respond_withReader (p : Data) (ts : List Transaction) (rs : List (Option Response)) (st : Status)
    (r : Data) (s : State) : (s.withReader p ts rs).respond st r = (s.respond st r).withReader p ts rs := by
  simp [State.withReader, State.respond]

/-- An outcome with its next state changed. -/
def mapNext (f : State → State) : Host.Outcome State Fault Refusal → Host.Outcome State Fault Refusal
  | .next s => .next (f s)
  | .fault r => .fault r
  | .refused r => .refused r

theorem mapNext_eq_next {f : State → State} {o : Host.Outcome State Fault Refusal} {t : State}
    (h : mapNext f o = .next t) : ∃ u, o = .next u ∧ t = f u := by
  cases o with
  | next u => cases h; exact ⟨u, rfl, rfl⟩
  | fault r => cases h
  | refused r => cases h

theorem writerEntry_withReader {legal : Bool} {b : State → Status × State} (p : Data)
    (ts : List Transaction) (rs : List (Option Response)) (s : State)
    (hb : b (s.withReader p ts rs) = ((b s).1, (b s).2.withReader p ts rs)) :
    writerEntry legal (fun s => (b s).2.respond (b s).1 0) (s.withReader p ts rs) =
      mapNext (State.withReader p ts rs) (writerEntry legal (fun s => (b s).2.respond (b s).1 0) s) := by
  have hf : (s.withReader p ts rs).bFatal = s.bFatal := rfl
  have he : (s.withReader p ts rs).wErr = s.wErr := rfl
  simp only [writerEntry, answerIllegal, hf, he, hb, respond_withReader]
  split
  · rfl
  · split
    · rfl
    · split <;> rfl

/-- A writer command sees neither the cursor nor earlier transactions and responses. -/
theorem exec_withReader {i : Instr} (hi : i.isWriter = true) (p : Data) (ts : List Transaction)
    (rs : List (Option Response)) (s : State) :
    exec i (s.withReader p ts rs) = mapNext (State.withReader p ts rs) (exec i s) := by
  cases i with
  | writebits n v => exact writerEntry_withReader p ts rs s (writeLoop_withReader p ts rs _ _ _ s)
  | flush => exact writerEntry_withReader p ts rs s (flushBody_withReader p ts rs s)
  | close => exact writerEntry_withReader p ts rs s (closeBody_withReader p ts rs s)
  | readbits n => cases hi
  | seek wh o => cases hi
  | skip o => cases hi
  | tell => cases hi

/-- What a writer command does, told from the bare state. -/
theorem exec_eq_mapNext_bare {i : Instr} (hi : i.isWriter = true) (s : State) :
    exec i s = mapNext (State.withReader s.rPos s.bus s.responses) (exec i s.bare) := by
  conv => lhs; rw [← bare_withReader s]
  exact exec_withReader hi _ _ _ _

/-- A writer command does the same, and answers the same, from states with the same writer. -/
theorem exec_sameWriter {i : Instr} {s s' t : State} (hi : i.isWriter = true) (hs : SameWriter s s')
    (h : exec i s = .next t) :
    ∃ t', exec i s' = .next t' ∧ SameWriter t t' ∧
      ∃ a, t.responses = s.responses ++ [a] ∧ t'.responses = s'.responses ++ [a] := by
  rw [exec_eq_mapNext_bare hi] at h
  obtain ⟨u, hu, rfl⟩ := mapNext_eq_next h
  obtain ⟨-, x, st, hx, rfl⟩ := exec_writer_next hi hu
  have hresp : (x.respond st 0).responses = [some { status := st, result := 0 }] :=
    congrArg (· ++ [_]) hx.responses
  refine ⟨(x.respond st 0).withReader s'.rPos s'.bus s'.responses, ?_, ⟨rfl, ?_, ?_⟩, _,
    congrArg (s.responses ++ ·) hresp, congrArg (s'.responses ++ ·) hresp⟩
  · rw [exec_eq_mapNext_bare hi, hs.bare, hu]
    rfl
  · rw [withReader_accepted, withReader_accepted]
    exact congrArg (· ++ _) hs.accepted
  · rw [withReader_closeAnswers, withReader_closeAnswers]
    exact congrArg (· ++ _) hs.closeAnswers

/-! ### The order of a writer and a reader command: what the reader works from -/

/-- The reader finds in `t` what it finds in `s`: the cursor, the halt, and every byte there is to read. -/
structure ReadsAs (s t : State) : Prop where
  rPos : t.rPos = s.rPos
  bFatal : t.bFatal = s.bFatal
  source : ∀ a b, s.sourceAt a = some b → t.sourceAt a = some b

section Reads

variable {s s' u : State} (hs : ReadsAs s s')
include hs

theorem ReadsAs.byteOffset : s'.byteOffset = s.byteOffset := by
  rw [State.byteOffset, hs.rPos, State.byteOffset]

theorem ReadsAs.bitOffset : s'.bitOffset = s.bitOffset := by
  rw [State.bitOffset, hs.rPos, State.bitOffset]

theorem ReadsAs.advance (k : Nat) : ReadsAs (s.advance k) (s'.advance k) :=
  ⟨by rw [advance_rPos, advance_rPos, hs.rPos], hs.bFatal, hs.source⟩

/-- A read that gives a byte gives the same byte again. -/
theorem memRead_readsAs {a : Nat} {b : Byte} (h : memRead a s = (some b, u)) :
    ∃ u', memRead a s' = (some b, u') ∧ ReadsAs u u' := by
  obtain ⟨hb, rfl⟩ := Prod.mk.inj h
  refine ⟨_, congrArg (·, _) (hs.source a b hb), hs.rPos, hs.bFatal, ?_⟩
  rw [record_memRead_sourceAt, record_memRead_sourceAt]
  exact hs.source

theorem readWhole_readsAs {k acc v : Nat} (h : readWhole k acc s = (some v, u)) :
    ∃ u', readWhole k acc s' = (some v, u') ∧ ReadsAs u u' := by
  induction k generalizing acc s s' with
  | zero => cases h; exact ⟨s', rfl, hs⟩
  | succ k ih =>
    rw [readWhole] at h ⊢
    split at h
    next => cases h
    next b s1 hread =>
      obtain ⟨s1', hread', hs1⟩ := memRead_readsAs hs hread
      rw [hs.byteOffset, hread']
      exact ih (hs1.advance 8) h

theorem readTail_readsAs {rem acc v : Nat} (h : readTail rem acc s = (some v, u)) :
    ∃ u', readTail rem acc s' = (some v, u') ∧ ReadsAs u u' := by
  rw [readTail] at h ⊢
  split at h
  next h0 => cases h; exact ⟨s', if_pos h0, hs⟩
  next h0 =>
    rw [if_neg h0]
    split at h
    next => cases h
    next b s1 hread =>
      obtain ⟨s1', hread', hs1⟩ := memRead_readsAs hs hread
      cases h
      rw [hs.byteOffset, hread']
      exact ⟨_, rfl, hs1.advance rem⟩

theorem readWithin_readsAs {n v : Nat} (h : readWithin n s = (some v, u)) :
    ∃ u', readWithin n s' = (some v, u') ∧ ReadsAs u u' := by
  rw [readWithin] at h ⊢
  split at h
  next => cases h
  next b s1 hread =>
    obtain ⟨s1', hread', hs1⟩ := memRead_readsAs hs hread
    cases h
    rw [hs.byteOffset, hs.bitOffset, hread']
    exact ⟨_, rfl, hs1.advance n⟩

theorem readAcross_readsAs {n v : Nat} (h : readAcross n s = (some v, u)) :
    ∃ u', readAcross n s' = (some v, u') ∧ ReadsAs u u' := by
  rw [readAcross] at h ⊢
  split at h
  next => cases h
  next b s1 hread =>
    obtain ⟨s1', hread', hs1⟩ := memRead_readsAs hs hread
    rw [hs.byteOffset, hs.bitOffset, hread']
    simp only at h ⊢
    split at h
    next => cases h
    next acc s2 hwhole =>
      obtain ⟨s2', hwhole', hs2⟩ := readWhole_readsAs (hs1.advance _) hwhole
      rw [hwhole']
      exact readTail_readsAs hs2 h

theorem readField_readsAs {n v : Nat} (h : readField n s = (some v, u)) :
    ∃ u', readField n s' = (some v, u') ∧ ReadsAs u u' := by
  rw [readField] at h ⊢
  rw [hs.bitOffset]
  split at h
  next hin => rw [if_pos hin]; exact readWithin_readsAs hs h
  next hin => rw [if_neg hin]; exact readAcross_readsAs hs h

end Reads

theorem OnlyReader.sameWriter {s u : State} (h : OnlyReader s u) : SameWriter s u where
  bare := by
    obtain ⟨c, w, e, p, f, fc, pl, src, bus, script, d, host, rs⟩ := u
    obtain ⟨rfl, rfl, rfl, rfl, rfl, rfl, rfl, rfl, rfl, rfl, -, -⟩ := h
    rfl
  accepted := h.accepted
  closeAnswers := h.closeAnswers

/-- From `s` to `t` and from `s'` to `t'` a reader has worked and answered, to the same cursor and with the same response. -/
structure AnswersAlike (s s' t t' : State) : Prop where
  left : SameWriter s t
  right : SameWriter s' t'
  rPos : t'.rPos = t.rPos
  responses : ∃ b, t.responses = s.responses ++ [b] ∧ t'.responses = s'.responses ++ [b]

theorem respond_answersAlike {s s' u u' : State} (st : Status) (v : Data) (hu : OnlyReader s u)
    (hu' : OnlyReader s' u') (hpos : u'.rPos = u.rPos) :
    AnswersAlike s s' (u.respond st v) (u'.respond st v) where
  left := ⟨hu.sameWriter.bare, hu.accepted, hu.closeAnswers⟩
  right := ⟨hu'.sameWriter.bare, hu'.accepted, hu'.closeAnswers⟩
  rPos := hpos
  responses := ⟨_, by rw [respond_responses, hu.responses], by rw [respond_responses, hu'.responses]⟩

/-- READBITS's body from its range check and the field it reads. -/
theorem readBody_of_some {n v : Nat} {s u : State} (hn : s.rPos.toInt + n ≤ Config.posMax)
    (h : readField n s = (some v, u)) : readBody n s = u.respond .ok (BitVec.ofNat 64 v) := by
  rw [readBody, if_neg (Int.not_lt.mpr hn), h]

theorem moveCursor_answersAlike {s s' : State} {new : Int} {r : Data}
    (hok : (moveCursor new r s).bFatal = false) :
    AnswersAlike s s' (moveCursor new r s) (moveCursor new r s') := by
  unfold moveCursor at hok ⊢
  split at hok
  next hnew =>
    rw [if_pos hnew, if_pos hnew]
    exact respond_answersAlike _ _ (setPos_onlyReader new s) (setPos_onlyReader new s') rfl
  next => cases hok

section Bodies

variable {s s' : State} (hs : ReadsAs s s')
include hs

theorem readBody_answersAlike {n : Nat} (hok : (readBody n s).bFatal = false) :
    AnswersAlike s s' (readBody n s) (readBody n s') := by
  rcases readBody_cases n s with ⟨-, hb⟩ | ⟨hn, v, u, hfield, hb⟩ | ⟨-, u, -, hb⟩ <;> rw [hb] at hok ⊢
  · cases hok
  · obtain ⟨u', hfield', hu⟩ := readField_readsAs hs hfield
    have honly := readField_onlyReader n s
    have honly' := readField_onlyReader n s'
    rw [hfield] at honly
    rw [hfield'] at honly'
    rw [readBody_of_some (hs.rPos ▸ hn) hfield']
    exact respond_answersAlike _ _ honly honly' hu.rPos
  · cases hok

theorem seekBody_answersAlike {wh : Whence} {o : Data} (hok : (seekBody wh o s).bFatal = false) :
    AnswersAlike s s' (seekBody wh o s) (seekBody wh o s') := by
  cases wh with
  | start => exact moveCursor_answersAlike hok
  | current =>
    rw [seekBody_current] at hok ⊢
    rw [seekBody_current, hs.rPos]
    exact moveCursor_answersAlike hok
  | other2 => cases hok
  | other3 => cases hok

theorem skipBody_answersAlike {o : Data} (hok : (skipBody o s).bFatal = false) :
    AnswersAlike s s' (skipBody o s) (skipBody o s') := by
  have htarget : skipTarget o s' = skipTarget o s := by rw [skipTarget, hs.rPos, skipTarget]
  rw [skipBody] at hok ⊢
  rw [skipBody, htarget]
  exact moveCursor_answersAlike hok

theorem readerEntry_answersAlike {legal : Bool} {body : State → State} {t : State}
    (hbody : (body s).bFatal = false → AnswersAlike s s' (body s) (body s'))
    (h : readerEntry legal body s = .next t) (hok : t.bFatal = false) :
    ∃ t', readerEntry legal body s' = .next t' ∧ AnswersAlike s s' t t' := by
  obtain ⟨hf, ⟨rfl, rfl⟩ | ⟨rfl, rfl⟩⟩ := readerEntry_next h
  · refine ⟨s'.respond .illegal 0, ?_, respond_answersAlike _ _ (.refl s) (.refl s') hs.rPos⟩
    simp [readerEntry, answerIllegal, hs.bFatal, hf]
  · exact ⟨body s', readerEntry_ready (hs.bFatal.trans hf), hbody hok⟩

/-- A reader command that raises no FATAL answers the same where there is as much to read. -/
theorem exec_readsAs {i : Instr} {t : State} (hi : i.isWriter = false) (h : exec i s = .next t)
    (hok : t.bFatal = false) : ∃ t', exec i s' = .next t' ∧ AnswersAlike s s' t t' := by
  cases i with
  | writebits n v => cases hi
  | flush => cases hi
  | close => cases hi
  | readbits n => exact readerEntry_answersAlike hs (readBody_answersAlike hs) h hok
  | seek wh o => exact readerEntry_answersAlike hs (seekBody_answersAlike hs) h hok
  | skip o => exact readerEntry_answersAlike hs (skipBody_answersAlike hs) h hok
  | tell =>
    rw [exec_tell] at h ⊢
    refine readerEntry_answersAlike hs (fun _ => ?_) h hok
    rw [hs.rPos]
    exact respond_answersAlike _ _ (.refl s) (.refl s') hs.rPos

end Bodies

/-- A reader command that raises no FATAL leaves the writer as it was. -/
theorem exec_reader_sameWriter {i : Instr} {s t : State} (hi : i.isWriter = false) (h : exec i s = .next t)
    (hok : t.bFatal = false) : SameWriter s t := by
  obtain ⟨_, -, halike⟩ := exec_readsAs ⟨rfl, rfl, fun _ _ => id⟩ hi h hok
  exact halike.left

/-- After a writer command the reader finds all that it found before (R2, R55). -/
theorem exec_writer_readsAs {i : Instr} {s t : State} (hi : i.isWriter = true) (h : exec i s = .next t) :
    ReadsAs s t := by
  obtain ⟨-, u, st, hu, rfl⟩ := exec_writer_next hi h
  exact ⟨hu.rPos, hu.bFatal, fun _ _ => sourceAt_mono hu.platform hu.source hu.accepted⟩

/-- Without LOOPBACK the reader finds nothing new after a writer command. -/
theorem exec_writer_readsAs_symm {i : Instr} {s t : State} (hi : i.isWriter = true)
    (hl : s.platform.loopback = false) (h : exec i s = .next t) : ReadsAs t s := by
  obtain ⟨-, u, st, hu, rfl⟩ := exec_writer_next hi h
  refine ⟨hu.rPos.symm, hu.bFatal.symm, fun a b hb => ?_⟩
  rwa [respond_sourceAt, hu.sourceAt hl] at hb

/-- Settles O54: the reader finds after the writer's command all that it read before it (`exec_writer_readsAs`), and the writer
does not notice the reader's. -/
theorem readerThenWriterCommandsCommute : Obligations.ReaderThenWriterCommandsCommute := by
  intro w r s s3 s4 hw hr h3 hok h4
  have hback := (exec_reader_sameWriter hr h3 hok).symm
  obtain ⟨s1, h1, hsame, a, ha4, ha1⟩ := exec_sameWriter hw hback h4
  obtain ⟨s2, h2, -, hright, hpos, b, hb3, hb2⟩ := exec_readsAs (exec_writer_readsAs hw h1) hr h3 hok
  have hend : SameWriter s4 s2 := hsame.trans hright
  have hpos4 := (exec_writer_readsAs hw h4).rPos
  exact ⟨s1, s2, h1, h2, hend.wCache, hend.wUsed, hend.wErr, hpos.trans hpos4.symm, hend.bFatal,
    hend.accepted, hend.closeAnswers, hend.sinkScript, hend.draws, a, b,
    by rw [hb2, ha1, List.append_assoc]; rfl, by rw [ha4, hb3, List.append_assoc]; rfl⟩

/-- Settles O52: without LOOPBACK the reader finds before the writer's command what it read after it
(`exec_writer_readsAs_symm`), and the writer does not notice the reader's. -/
theorem writerAndReaderCommandsCommute : Obligations.WriterAndReaderCommandsCommute := by
  intro w r s s1 s2 hw hr hl h1 h2 hok
  obtain ⟨s3, h3, hleft, hright, hpos, b, hb2, hb3⟩ :=
    exec_readsAs (exec_writer_readsAs_symm hw hl h1) hr h2 hok
  obtain ⟨s4, h4, hsame, a, ha1, ha4⟩ := exec_sameWriter hw hright h1
  have hend : SameWriter s2 s4 := hleft.symm.trans hsame
  have hpos4 := (exec_writer_readsAs hw h4).rPos
  exact ⟨s3, s4, h3, h4, hend.wCache, hend.wUsed, hend.wErr, hpos4.trans hpos, hend.bFatal,
    hend.accepted, hend.closeAnswers, hend.sinkScript, hend.draws, a, b,
    by rw [hb2, ha1, List.append_assoc]; rfl, by rw [ha4, hb3, List.append_assoc]; rfl⟩

/-! ### Raising FATAL (R120, R124) -/

/-- The causes R120 names, each with the commands it comes from; RANGE is raised before anything is done. -/
def HaltCause (i : Instr) (s t : State) : Prop :=
  (t.bFatalCause = causeCode .readFail ∧ ∃ n, i = .readbits n) ∨
  (t.bFatalCause = causeCode .badWhence ∧ ∃ o, i = .seek .other2 o ∨ i = .seek .other3 o) ∨
  (t.bFatalCause = causeCode .range ∧ t.rPos = s.rPos ∧ t.bus = s.bus ∧
    ((∃ n, i = .readbits n) ∨ (∃ wh o, i = .seek wh o) ∨ ∃ o, i = .skip o))

theorem readBody_haltCause {n : Nat} {s : State} (hf : s.bFatal = false)
    (h : (readBody n s).bFatal = true) : HaltCause (.readbits n) s (readBody n s) := by
  rcases readBody_cases n s with ⟨-, hb⟩ | ⟨-, v, u, hfield, hb⟩ | ⟨-, u, -, hb⟩ <;> rw [hb] at h ⊢
  · exact .inr (.inr ⟨rfl, rfl, rfl, .inl ⟨n, rfl⟩⟩)
  · have honly := readField_onlyReader n s
    rw [hfield] at honly
    rw [respond_bFatal, honly.bFatal, hf] at h
    cases h
  · exact .inl ⟨rfl, n, rfl⟩

/-- A move of the cursor halts only out of range. -/
theorem moveCursor_halts {new : Int} {r : Data} {s : State} (hf : s.bFatal = false)
    (h : (moveCursor new r s).bFatal = true) : moveCursor new r s = s.raiseFatal .range := by
  rcases moveCursor_cases new r s with ⟨-, hm⟩ | ⟨-, hm⟩
  · rw [hm, respond_bFatal, setPos_bFatal, hf] at h
    cases h
  · exact hm

theorem seekBody_haltCause {wh : Whence} {o : Data} {s : State} (hf : s.bFatal = false)
    (h : (seekBody wh o s).bFatal = true) : HaltCause (.seek wh o) s (seekBody wh o s) := by
  have move : seekBody wh o s = s.raiseFatal .range → HaltCause (.seek wh o) s (seekBody wh o s) :=
    fun hb => hb ▸ .inr (.inr ⟨rfl, rfl, rfl, .inr (.inl ⟨wh, o, rfl⟩)⟩)
  cases wh with
  | start => exact move (moveCursor_halts hf h)
  | current => exact move (moveCursor_halts hf h)
  | other2 => exact .inr (.inl ⟨rfl, o, .inl rfl⟩)
  | other3 => exact .inr (.inl ⟨rfl, o, .inr rfl⟩)

theorem skipBody_haltCause {o : Data} {s : State} (hf : s.bFatal = false)
    (h : (skipBody o s).bFatal = true) : HaltCause (.skip o) s (skipBody o s) := by
  have hb : skipBody o s = s.raiseFatal .range := moveCursor_halts hf h
  exact hb ▸ .inr (.inr ⟨rfl, rfl, rfl, .inr (.inr ⟨o, rfl⟩)⟩)

theorem readerEntry_haltCause {i : Instr} {legal : Bool} {body : State → State} {s t : State}
    (hbody : s.bFatal = false → (body s).bFatal = true → HaltCause i s (body s))
    (h : readerEntry legal body s = .next t) (ht : t.bFatal = true) : HaltCause i s t := by
  obtain ⟨hf, ⟨-, rfl⟩ | ⟨-, rfl⟩⟩ := readerEntry_next h
  · rw [respond_bFatal, hf] at ht
    cases ht
  · exact hbody hf ht

theorem exec_haltCause {i : Instr} {s t : State} (hi : i.isWriter = false) (h : exec i s = .next t)
    (ht : t.bFatal = true) : HaltCause i s t := by
  cases i with
  | writebits n v => cases hi
  | flush => cases hi
  | close => cases hi
  | readbits n => exact readerEntry_haltCause readBody_haltCause h ht
  | seek wh o => exact readerEntry_haltCause seekBody_haltCause h ht
  | skip o => exact readerEntry_haltCause skipBody_haltCause h ht
  | tell => exact readerEntry_haltCause (fun hf h => absurd (hf.symm.trans h) Bool.false_ne_true) h ht

/-- Settles O45: a halted state comes from a reader command (`exec_writer_next`), which has moved nothing of the writer and
the sink (`exec_reader_next`); the cause is told command by command (`exec_haltCause`). -/
theorem fatalEntry : Obligations.FatalEntry := by
  intro i s t hf h ht
  cases hi : i.isWriter with
  | true =>
    obtain ⟨-, u, st, hu, rfl⟩ := exec_writer_next hi h
    rw [respond_bFatal, hu.bFatal, hf] at ht
    cases ht
  | false =>
    have hcause := exec_haltCause hi h ht
    obtain ⟨-, u, hu, ⟨st, v, rfl⟩ | ⟨c, rfl⟩⟩ := exec_reader_next hi h
    · rw [respond_bFatal, hu.bFatal, hf] at ht
      cases ht
    · exact ⟨by rw [raiseFatal_responses, hu.responses], hu.wCache, hu.wUsed, hu.wErr, hu.accepted, hcause⟩

/-! ### ILLEGAL, WRITER_UNUSABLE, and the idle block (R121, R122, R134) -/

theorem writerEntry_illegal {body : State → State} {s : State} (hf : s.bFatal = false) :
    writerEntry false body s = .next (s.respond .illegal 0) := by
  simp [writerEntry, answerIllegal, hf]

theorem readerEntry_illegal {body : State → State} {s : State} (hf : s.bFatal = false) :
    readerEntry false body s = .next (s.respond .illegal 0) := by
  simp [readerEntry, answerIllegal, hf]

theorem writerEntry_poisoned {body : State → State} {s : State} (hf : s.bFatal = false)
    (he : s.wErr = true) : writerEntry true body s = .next (s.respond .writerUnusable 0) := by
  simp [writerEntry, hf, he]

/-- A word that is no command answers ILLEGAL (R122). -/
theorem present_illegal {c : Cmd} (d : Data) {s : State} (hf : s.bFatal = false)
    (hc : legalWord c = false) : present c d s = .next (s.respond .illegal 0) := by
  obtain ⟨hlegal, -⟩ := legalWordsAreTheTablesWords c
  unfold present
  cases hdec : decode c d with
  | ok i =>
    rw [(hlegal d).mpr ⟨i, hdec⟩] at hc
    cases hc
  | error e => simp [rejectWord, answerIllegal, hf]

/-- A command whose width is above 64 answers ILLEGAL. -/
theorem exec_illegal {i : Instr} {s : State} (hf : s.bFatal = false) (hi : i.wf = false) :
    exec i s = .next (s.respond .illegal 0) := by
  cases i with
  | writebits n v =>
    have hn : decide (n ≤ 64) = false := hi
    rw [exec_writebits, hn, writerEntry_illegal hf]
  | readbits n =>
    have hn : decide (n ≤ 64) = false := hi
    rw [exec_readbits, hn, readerEntry_illegal hf]
  | flush => cases hi
  | close => cases hi
  | seek wh o => cases hi
  | skip o => cases hi
  | tell => cases hi

/-- Settles O7: an illegal word does not decode (`present_illegal`), and an ill-formed command fails its entry check. -/
theorem illegalWordsAnswerIllegal : Obligations.IllegalWordsAnswerIllegal := by
  refine ⟨fun s c d rest hhost hf hc => ?_, fun i s => exec_illegal⟩
  rw [step_of_host_cons hhost]
  exact present_illegal d hf hc

/-- Settles O28: WRITER_UNUSABLE is the entry's last check, and both resets clear `W.err`. -/
theorem poisonedWriterAnswersUnusable : Obligations.PoisonedWriterAnswersUnusable := by
  refine ⟨fun i s hi hwf hf he => ?_, fun s rest hhost => ?_⟩
  · cases i with
    | writebits n v =>
      have hn : decide (n ≤ 64) = true := hwf
      rw [exec_writebits, hn, writerEntry_poisoned hf he]
    | flush => rw [exec_flush, writerEntry_poisoned hf he]
    | close => rw [exec_close, writerEntry_poisoned hf he]
    | readbits n => cases hi
    | seek wh o => cases hi
    | skip o => cases hi
    | tell => cases hi
  · rcases hhost with hhost | hhost
    · exact ⟨_, step_of_host_cons hhost, rfl⟩
    · exact ⟨_, step_of_host_cons hhost, rfl⟩

theorem step_of_host_nil {s : State} (h : s.host = []) : step s = .next s := by
  rw [step, stepHost, h]

/-- Settles O9: each step of the run is one with no event. -/
theorem idleBlockHoldsItsState : Obligations.IdleBlockHoldsItsState := by
  intro k s h
  induction k with
  | zero => rfl
  | succ k ih => rw [run_succ (step_of_host_nil h), ih]

end Sys2Proof.Machine
end

section
/-! The family of 70_reset_and_hazards.md: the effects of the three resets (R140 to R142), and the block reset as the only way
out of a fatal halt (R142). -/

namespace Sys2Proof.Machine

/-! ### The three resets as steps -/

theorem step_of_writerReset {s : State} {rest : List HostEvent} (h : s.host = .writerReset :: rest) :
    step s = .next (s.withHost rest).writerReset :=
  step_of_host_cons h

theorem step_of_readerReset {s : State} {rest : List HostEvent} (h : s.host = .readerReset :: rest) :
    step s = .next (s.withHost rest).readerReset :=
  step_of_host_cons h

theorem step_of_blockReset {s : State} {rest : List HostEvent} (h : s.host = .blockReset :: rest) :
    step s = .next (s.withHost rest).blockReset :=
  step_of_host_cons h

/-- Settles O10: the step is `State.writerReset`, which writes the writer's registers and no other part that is named. -/
theorem writerResetEffect : Obligations.WriterResetEffect := by
  intro s rest hhost
  refine ⟨_, step_of_writerReset hhost, ?_⟩
  simp

/-- Settles O11: the step is `State.readerReset`, which writes only the cursor. -/
theorem readerResetEffect : Obligations.ReaderResetEffect :=
  fun _ _ hhost => step_of_readerReset hhost

/-! ### Out of the halt -/

/-- In a halted block a command gets stuck and the unit resets leave the halt, so only the block reset can end it. -/
theorem performEvent_of_halted {e : HostEvent} {s t : State} (hf : s.bFatal = true)
    (h : performEvent e s = .next t) :
    e = .blockReset ∨ (t.bFatal = true ∧ t.bFatalCause = s.bFatalCause) := by
  cases e with
  | command c d =>
    have hstuck : performEvent (.command c d) s = .fault .stuck := present_stuck c d hf
    rw [hstuck] at h
    cases h
  | writerReset => cases h; exact .inr ⟨hf, rfl⟩
  | readerReset => cases h; exact .inr ⟨hf, rfl⟩
  | blockReset => exact .inl rfl

/-- A step from a halted state performs a block reset or leaves the halt and its cause: an idle block holds its state. -/
theorem step_of_halted {s t : State} (hf : s.bFatal = true) (h : step s = .next t) :
    (∃ rest, s.host = .blockReset :: rest) ∨ (t.bFatal = true ∧ t.bFatalCause = s.bFatalCause) := by
  cases hhost : s.host with
  | nil =>
    rw [step_of_host_nil hhost] at h
    cases h
    exact .inr ⟨hf, rfl⟩
  | cons e rest =>
    rw [step_of_host_cons hhost] at h
    rcases performEvent_of_halted (s := s.withHost rest) hf h with rfl | hkeep
    · exact .inl ⟨rest, rfl⟩
    · exact .inr hkeep

/-- Settles O12: the step is `State.blockReset`, and no other event ends the halt (`step_of_halted`). -/
theorem blockResetIsTheOnlyWayOutOfTheHalt : Obligations.BlockResetIsTheOnlyWayOutOfTheHalt := by
  refine ⟨fun s rest hhost => ⟨_, step_of_blockReset hhost, ?_⟩, fun s t => step_of_halted, ?_⟩
  · simp
  · exact ⟨rfl, rfl, rfl, rfl, rfl⟩

end Sys2Proof.Machine
end
